-- ==== Sys2Proof/Word.lean ====
section
/-! DEFINITION. The bit widths of the machine's values (00_scope R11: every value is unsigned, bit 0 is the least significant). -/

namespace Sys2Proof

/-- 8 bits: a general register, a memory byte, a timer, `SP` (10_state R20). -/
abbrev Byte := BitVec 8

/-- 16 bits: an instruction word, `I`, `PC`, a stack entry (10_state R20, 30_encoding R70). -/
abbrev Word := BitVec 16

/-- 4 bits: a register selector, the immediate nibble, a key value (30_encoding R72, 00_scope R7). -/
abbrev Nibble := BitVec 4

/-- 12 bits: the immediate address `addr` (30_encoding R72). -/
abbrev Addr := BitVec 12

end Sys2Proof
end

