-- ==== Sys2Proof/Config.lean ====
section
/-! DEFINITION. The parameters of 00_scope R5, and the values the spec leaves open.
A constant with a body is fixed by the spec; an `opaque` one has no body, so nothing can be proved of its value. -/

namespace Sys2Proof.Config

/-- Memory size in bytes, addresses 0..4095 (R5, 20_memory R50). -/
def memSize : Nat := 4096

/-- The first program byte and the reset `PC` (R5, R231). -/
def progBase : Nat := 0x200

/-- The largest ROM: 4096 - 0x200 = 3584 bytes (R5, R234). -/
def romMax : Nat := memSize - progBase

/-- The largest value `SP` may hold (R5 `SP_MAX`, 10_state R27, 90_conflicts C1). -/
def spMax : Nat := 15

/-- The extent of the font, 16 glyphs of 5 bytes at addresses 0..79 (R5). -/
abbrev fontSize : Nat := 80

/-- The default of the parameter `FONT` (R232), one row of its table a line, glyph `d` at `5 * d`. -/
def defaultFontBytes : List Byte :=
  [0xF0, 0x90, 0x90, 0x90, 0xF0] ++
  [0x20, 0x60, 0x20, 0x20, 0x70] ++
  [0xF0, 0x10, 0xF0, 0x80, 0xF0] ++
  [0xF0, 0x10, 0xF0, 0x10, 0xF0] ++
  [0x90, 0x90, 0xF0, 0x10, 0x10] ++
  [0xF0, 0x80, 0xF0, 0x10, 0xF0] ++
  [0xF0, 0x80, 0xF0, 0x90, 0xF0] ++
  [0xF0, 0x10, 0x20, 0x40, 0x40] ++
  [0xF0, 0x90, 0xF0, 0x90, 0xF0] ++
  [0xF0, 0x90, 0xF0, 0x10, 0xF0] ++
  [0xF0, 0x90, 0xF0, 0x90, 0x90] ++
  [0xE0, 0x90, 0xE0, 0x90, 0xE0] ++
  [0xF0, 0x80, 0x80, 0x80, 0xF0] ++
  [0xE0, 0x90, 0x90, 0x90, 0xE0] ++
  [0xF0, 0x80, 0xF0, 0x80, 0xF0] ++
  [0xF0, 0x80, 0xF0, 0x80, 0x80]

/-- The default of `FONT` as the parameter's value. The parameter itself is OPEN (R5, 92_eei_decisions D13) and the model
takes it as an argument: it stands in `Machine.Memory.font` and `Machine.State.resetWith` takes it (entry 3). -/
def defaultFont : Vector Byte fontSize := ⟨⟨defaultFontBytes⟩, rfl⟩

/-- Free (entry 1): the key levels at the `TICK` numbered `n`, bit `k` is `KeyDown(k)` (00_scope R7). -/
opaque keysAt : Nat → BitVec 16

/-- Free (entry 1): which of the down keys `KeyAny` names at the `TICK` numbered `n` (R7, 92_eei_decisions D11). -/
opaque keyChoiceAt : Nat → Nibble

/-- Free (entry 1): `RandomByte` at the `TICK` numbered `n` (R7, 10_state R34, 92_eei_decisions D12). -/
opaque randomByteAt : Nat → Byte

/-- Free (entry 2): how many `FRAME` events the host issues between the `TICK` numbered `n` and the next one
(R6, `TICKS_PER_FRAME` of R5, 92_eei_decisions D15). -/
opaque framesAfter : Nat → Nat

end Sys2Proof.Config
end

