-- ==== Sys2Proof/Syntax.lean ====
section
/-! DEFINITION. The 34 instructions of 30_encoding R76, one constructor per row of spec/opcode_table.json, in its order.
An operand has the width of its field (R72), so every operand fits. `m` and the `y` of SHR and SHL are the bits the
decoder does not examine (R78): they are kept, so that encoding loses no bit and a fault report can name the word. -/

namespace Sys2Proof

/-- The instructions (R76). -/
inductive Instr where
  /-- `00E0` CLS, R170; `m` is op[11:8], not examined. -/
  | cls (m : Nibble)
  /-- `00EE` RET, R101; `m` is op[11:8], not examined. -/
  | ret (m : Nibble)
  /-- `1nnn` JP addr, R102. -/
  | jpAddr (addr : Addr)
  /-- `2nnn` CALL addr, R103. -/
  | callAddr (addr : Addr)
  /-- `3xkk` SE Vx, kk, R104. -/
  | seImm (x : Nibble) (kk : Byte)
  /-- `4xkk` SNE Vx, kk, R105. -/
  | sneImm (x : Nibble) (kk : Byte)
  /-- `5xy0` SE Vx, Vy, R106; `m` is op[3:0], not examined. -/
  | seReg (x y m : Nibble)
  /-- `6xkk` LD Vx, kk, R120. -/
  | ldImm (x : Nibble) (kk : Byte)
  /-- `7xkk` ADD Vx, kk, R121. -/
  | addImm (x : Nibble) (kk : Byte)
  /-- `8xy0` LD Vx, Vy, R122. -/
  | ldReg (x y : Nibble)
  /-- `8xy1` OR Vx, Vy, R123. -/
  | orReg (x y : Nibble)
  /-- `8xy2` AND Vx, Vy, R124. -/
  | andReg (x y : Nibble)
  /-- `8xy3` XOR Vx, Vy, R125. -/
  | xorReg (x y : Nibble)
  /-- `8xy4` ADD Vx, Vy, R126. -/
  | addReg (x y : Nibble)
  /-- `8xy5` SUB Vx, Vy, R127. -/
  | subReg (x y : Nibble)
  /-- `8xy6` SHR Vx, R128; `y` is not used. -/
  | shr (x y : Nibble)
  /-- `8xy7` SUBN Vx, Vy, R129. -/
  | subnReg (x y : Nibble)
  /-- `8xyE` SHL Vx, R130; `y` is not used. -/
  | shl (x y : Nibble)
  /-- `9xy0` SNE Vx, Vy, R107; `m` is op[3:0], not examined. -/
  | sneReg (x y m : Nibble)
  /-- `Annn` LD I, addr, R150. -/
  | ldI (addr : Addr)
  /-- `Bnnn` JP V0, addr, R108. -/
  | jpV0 (addr : Addr)
  /-- `Cxkk` RND Vx, kk, R131. -/
  | rnd (x : Nibble) (kk : Byte)
  /-- `Dxyn` DRW Vx, Vy, n, R171. -/
  | drw (x y n : Nibble)
  /-- `Ex9E` SKP Vx, R180. -/
  | skp (x : Nibble)
  /-- `ExA1` SKNP Vx, R181. -/
  | sknp (x : Nibble)
  /-- `Fx07` LD Vx, DT, R182. -/
  | ldVxDt (x : Nibble)
  /-- `Fx0A` LD Vx, K, R184. -/
  | ldVxK (x : Nibble)
  /-- `Fx15` LD DT, Vx, R185. -/
  | ldDtVx (x : Nibble)
  /-- `Fx18` LD ST, Vx, R186. -/
  | ldStVx (x : Nibble)
  /-- `Fx1E` ADD I, Vx, R151. -/
  | addI (x : Nibble)
  /-- `Fx29` LD F, Vx, R152. -/
  | ldF (x : Nibble)
  /-- `Fx33` LD B, Vx, R153. -/
  | ldB (x : Nibble)
  /-- `Fx55` LD [I], Vx, R154. -/
  | storeRegs (x : Nibble)
  /-- `Fx65` LD Vx, [I], R155. -/
  | loadRegs (x : Nibble)
  deriving DecidableEq, Repr

end Sys2Proof
end

