-- ==== Sys2Proof/WellFormed.lean ====
section
/-! DEFINITION. The checks on an instruction as syntax. Every operand has its field's width by its type, so the checks
left are those of the canonical spelling (30_encoding R78, R80): the bits the decoder does not examine are 0, which is
what an assembler emits. DESIGN CHOICE (entry 12), safe: nothing else in the model asks for it, the decoder accepts
every spelling and `exec` runs it. -/

namespace Sys2Proof

/-- The bits op[11:8] or op[3:0] that are not examined, or an unused `y`, are 0 (R78, R80). -/
def Instr.wellFormed : Instr → Bool
  | .cls m => m == 0
  | .ret m => m == 0
  | .seReg _ _ m => m == 0
  | .sneReg _ _ m => m == 0
  | .shr _ y => y == 0
  | .shl _ y => y == 0
  | .jpAddr _ | .callAddr _ | .seImm _ _ | .sneImm _ _ | .ldImm _ _ | .addImm _ _ => true
  | .ldReg _ _ | .orReg _ _ | .andReg _ _ | .xorReg _ _ | .addReg _ _ | .subReg _ _ | .subnReg _ _ => true
  | .ldI _ | .jpV0 _ | .rnd _ _ | .drw _ _ _ | .skp _ | .sknp _ => true
  | .ldVxDt _ | .ldVxK _ | .ldDtVx _ | .ldStVx _ | .addI _ | .ldF _ | .ldB _ | .storeRegs _ | .loadRegs _ => true

end Sys2Proof
end

