-- ==== Sys2Proof/Decode.lean ====
section
/-! DEFINITION. The instruction word: fields, decoder, encoder, opcode map (30_encoding R70 to R79, R82). -/

namespace Sys2Proof

/-- The word of two bytes, the one at the lower address in the high half (20_memory R54, 30_encoding R71). -/
def wordOf (hi lo : Byte) : Word := hi ++ lo

/-- op[15:8], the byte at the lower address (R71). -/
def hiByte (op : Word) : Byte := op.extractLsb' 8 8

/-- op[7:0], the byte at the higher address (R71). -/
def loByte (op : Word) : Byte := op.extractLsb' 0 8

/-! The fields of R72. -/

def fieldFamily (op : Word) : Nibble := op.extractLsb' 12 4
def fieldX (op : Word) : Nibble := op.extractLsb' 8 4
def fieldY (op : Word) : Nibble := op.extractLsb' 4 4
def fieldN (op : Word) : Nibble := op.extractLsb' 0 4
def fieldKK (op : Word) : Byte := op.extractLsb' 0 8
def fieldAddr (op : Word) : Addr := op.extractLsb' 0 12

/-- Why bytes are no instruction. -/
inductive DecodeError where
  /-- The word selects no row of R76 (R77). -/
  | invalidOpcode (op : Word)
  /-- Fewer than the two bytes of an instruction (R70); a fetch never gives this (R71 faults first). -/
  | truncated
  deriving DecidableEq, Repr

/-- Family 0x0: the low byte selects (R75). -/
def decodeFamily0 (op : Word) : Except DecodeError Instr :=
  match fieldKK op with
  | 0xE0#8 => .ok (.cls (fieldX op))
  | 0xEE#8 => .ok (.ret (fieldX op))
  | _ => .error (.invalidOpcode op)

/-- Family 0x8: the low nibble selects (R75). -/
def decodeFamily8 (op : Word) : Except DecodeError Instr :=
  match fieldN op with
  | 0x0#4 => .ok (.ldReg (fieldX op) (fieldY op))
  | 0x1#4 => .ok (.orReg (fieldX op) (fieldY op))
  | 0x2#4 => .ok (.andReg (fieldX op) (fieldY op))
  | 0x3#4 => .ok (.xorReg (fieldX op) (fieldY op))
  | 0x4#4 => .ok (.addReg (fieldX op) (fieldY op))
  | 0x5#4 => .ok (.subReg (fieldX op) (fieldY op))
  | 0x6#4 => .ok (.shr (fieldX op) (fieldY op))
  | 0x7#4 => .ok (.subnReg (fieldX op) (fieldY op))
  | 0xE#4 => .ok (.shl (fieldX op) (fieldY op))
  | _ => .error (.invalidOpcode op)

/-- Family 0xE: the low byte selects (R75). -/
def decodeFamilyE (op : Word) : Except DecodeError Instr :=
  match fieldKK op with
  | 0x9E#8 => .ok (.skp (fieldX op))
  | 0xA1#8 => .ok (.sknp (fieldX op))
  | _ => .error (.invalidOpcode op)

/-- Family 0xF: the low byte selects (R75). -/
def decodeFamilyF (op : Word) : Except DecodeError Instr :=
  match fieldKK op with
  | 0x07#8 => .ok (.ldVxDt (fieldX op))
  | 0x0A#8 => .ok (.ldVxK (fieldX op))
  | 0x15#8 => .ok (.ldDtVx (fieldX op))
  | 0x18#8 => .ok (.ldStVx (fieldX op))
  | 0x1E#8 => .ok (.addI (fieldX op))
  | 0x29#8 => .ok (.ldF (fieldX op))
  | 0x33#8 => .ok (.ldB (fieldX op))
  | 0x55#8 => .ok (.storeRegs (fieldX op))
  | 0x65#8 => .ok (.loadRegs (fieldX op))
  | _ => .error (.invalidOpcode op)

/-- The decoder: total, and a function of the word alone (R75, R82). The last arm of the family match is never taken,
since the sixteen families are listed. -/
def decodeWord (op : Word) : Except DecodeError Instr :=
  match fieldFamily op with
  | 0x0#4 => decodeFamily0 op
  | 0x1#4 => .ok (.jpAddr (fieldAddr op))
  | 0x2#4 => .ok (.callAddr (fieldAddr op))
  | 0x3#4 => .ok (.seImm (fieldX op) (fieldKK op))
  | 0x4#4 => .ok (.sneImm (fieldX op) (fieldKK op))
  | 0x5#4 => .ok (.seReg (fieldX op) (fieldY op) (fieldN op))
  | 0x6#4 => .ok (.ldImm (fieldX op) (fieldKK op))
  | 0x7#4 => .ok (.addImm (fieldX op) (fieldKK op))
  | 0x8#4 => decodeFamily8 op
  | 0x9#4 => .ok (.sneReg (fieldX op) (fieldY op) (fieldN op))
  | 0xA#4 => .ok (.ldI (fieldAddr op))
  | 0xB#4 => .ok (.jpV0 (fieldAddr op))
  | 0xC#4 => .ok (.rnd (fieldX op) (fieldKK op))
  | 0xD#4 => .ok (.drw (fieldX op) (fieldY op) (fieldN op))
  | 0xE#4 => decodeFamilyE op
  | 0xF#4 => decodeFamilyF op
  | _ => .error (.invalidOpcode op)

/-- The decoder on bytes as memory holds them: the first two bytes make the word (R70, R71), the rest is handed back. -/
def decodeBytes : List Byte → Except DecodeError (Instr × List Byte)
  | hi :: lo :: rest =>
    match decodeWord (wordOf hi lo) with
    | .ok i => .ok (i, rest)
    | .error e => .error e
  | _ => .error .truncated

/-! The layouts of R73. -/

/-- `FIXED` and `XSUB`: family, op[11:8], sub-code. `XKK` has the same cut. -/
def layoutXKK (family x : Nibble) (kk : Byte) : Word := family ++ (x ++ kk)

/-- `XY` and `XYN`: family, x, y, low nibble. -/
def layoutXYN (family x y n : Nibble) : Word := family ++ (x ++ (y ++ n))

/-- `ADDR`: family, 12-bit address. -/
def layoutAddr (family : Nibble) (addr : Addr) : Word := family ++ addr

/-- The encoder, from the layouts of R73 and the numbers of R76. -/
def encode : Instr → Word
  | .cls m => layoutXKK 0x0 m 0xE0
  | .ret m => layoutXKK 0x0 m 0xEE
  | .jpAddr addr => layoutAddr 0x1 addr
  | .callAddr addr => layoutAddr 0x2 addr
  | .seImm x kk => layoutXKK 0x3 x kk
  | .sneImm x kk => layoutXKK 0x4 x kk
  | .seReg x y m => layoutXYN 0x5 x y m
  | .ldImm x kk => layoutXKK 0x6 x kk
  | .addImm x kk => layoutXKK 0x7 x kk
  | .ldReg x y => layoutXYN 0x8 x y 0x0
  | .orReg x y => layoutXYN 0x8 x y 0x1
  | .andReg x y => layoutXYN 0x8 x y 0x2
  | .xorReg x y => layoutXYN 0x8 x y 0x3
  | .addReg x y => layoutXYN 0x8 x y 0x4
  | .subReg x y => layoutXYN 0x8 x y 0x5
  | .shr x y => layoutXYN 0x8 x y 0x6
  | .subnReg x y => layoutXYN 0x8 x y 0x7
  | .shl x y => layoutXYN 0x8 x y 0xE
  | .sneReg x y m => layoutXYN 0x9 x y m
  | .ldI addr => layoutAddr 0xA addr
  | .jpV0 addr => layoutAddr 0xB addr
  | .rnd x kk => layoutXKK 0xC x kk
  | .drw x y n => layoutXYN 0xD x y n
  | .skp x => layoutXKK 0xE x 0x9E
  | .sknp x => layoutXKK 0xE x 0xA1
  | .ldVxDt x => layoutXKK 0xF x 0x07
  | .ldVxK x => layoutXKK 0xF x 0x0A
  | .ldDtVx x => layoutXKK 0xF x 0x15
  | .ldStVx x => layoutXKK 0xF x 0x18
  | .addI x => layoutXKK 0xF x 0x1E
  | .ldF x => layoutXKK 0xF x 0x29
  | .ldB x => layoutXKK 0xF x 0x33
  | .storeRegs x => layoutXKK 0xF x 0x55
  | .loadRegs x => layoutXKK 0xF x 0x65

/-- The two bytes of an instruction as memory holds them, the high byte first (20_memory R54). -/
def encodeBytes (i : Instr) : List Byte := [hiByte (encode i), loByte (encode i)]

/-- A row of the opcode map: a word `w` selects it when `w &&& mask = pattern` (R76, column "match"). -/
structure OpcodeRow where
  mask : Word
  pattern : Word
  deriving DecidableEq, Repr

/-- Whether a word selects a row (R76). -/
def OpcodeRow.selects (r : OpcodeRow) (op : Word) : Bool := op &&& r.mask == r.pattern

/-- The row of R76 an instruction belongs to. -/
def opcodeRow : Instr → OpcodeRow
  | .cls _ => ⟨0xF0FF, 0x00E0⟩
  | .ret _ => ⟨0xF0FF, 0x00EE⟩
  | .jpAddr _ => ⟨0xF000, 0x1000⟩
  | .callAddr _ => ⟨0xF000, 0x2000⟩
  | .seImm _ _ => ⟨0xF000, 0x3000⟩
  | .sneImm _ _ => ⟨0xF000, 0x4000⟩
  | .seReg _ _ _ => ⟨0xF000, 0x5000⟩
  | .ldImm _ _ => ⟨0xF000, 0x6000⟩
  | .addImm _ _ => ⟨0xF000, 0x7000⟩
  | .ldReg _ _ => ⟨0xF00F, 0x8000⟩
  | .orReg _ _ => ⟨0xF00F, 0x8001⟩
  | .andReg _ _ => ⟨0xF00F, 0x8002⟩
  | .xorReg _ _ => ⟨0xF00F, 0x8003⟩
  | .addReg _ _ => ⟨0xF00F, 0x8004⟩
  | .subReg _ _ => ⟨0xF00F, 0x8005⟩
  | .shr _ _ => ⟨0xF00F, 0x8006⟩
  | .subnReg _ _ => ⟨0xF00F, 0x8007⟩
  | .shl _ _ => ⟨0xF00F, 0x800E⟩
  | .sneReg _ _ _ => ⟨0xF000, 0x9000⟩
  | .ldI _ => ⟨0xF000, 0xA000⟩
  | .jpV0 _ => ⟨0xF000, 0xB000⟩
  | .rnd _ _ => ⟨0xF000, 0xC000⟩
  | .drw _ _ _ => ⟨0xF000, 0xD000⟩
  | .skp _ => ⟨0xF0FF, 0xE09E⟩
  | .sknp _ => ⟨0xF0FF, 0xE0A1⟩
  | .ldVxDt _ => ⟨0xF0FF, 0xF007⟩
  | .ldVxK _ => ⟨0xF0FF, 0xF00A⟩
  | .ldDtVx _ => ⟨0xF0FF, 0xF015⟩
  | .ldStVx _ => ⟨0xF0FF, 0xF018⟩
  | .addI _ => ⟨0xF0FF, 0xF01E⟩
  | .ldF _ => ⟨0xF0FF, 0xF029⟩
  | .ldB _ => ⟨0xF0FF, 0xF033⟩
  | .storeRegs _ => ⟨0xF0FF, 0xF055⟩
  | .loadRegs _ => ⟨0xF0FF, 0xF065⟩

/-- The opcode map of R76, its 34 rows in order, in the families' order of R75. -/
def opcodeMap : List OpcodeRow :=
  [⟨0xF0FF, 0x00E0⟩, ⟨0xF0FF, 0x00EE⟩, ⟨0xF000, 0x1000⟩, ⟨0xF000, 0x2000⟩, ⟨0xF000, 0x3000⟩, ⟨0xF000, 0x4000⟩,
   ⟨0xF000, 0x5000⟩, ⟨0xF000, 0x6000⟩, ⟨0xF000, 0x7000⟩] ++
  [⟨0xF00F, 0x8000⟩, ⟨0xF00F, 0x8001⟩, ⟨0xF00F, 0x8002⟩, ⟨0xF00F, 0x8003⟩, ⟨0xF00F, 0x8004⟩, ⟨0xF00F, 0x8005⟩,
   ⟨0xF00F, 0x8006⟩, ⟨0xF00F, 0x8007⟩, ⟨0xF00F, 0x800E⟩] ++
  [⟨0xF000, 0x9000⟩, ⟨0xF000, 0xA000⟩, ⟨0xF000, 0xB000⟩, ⟨0xF000, 0xC000⟩, ⟨0xF000, 0xD000⟩, ⟨0xF0FF, 0xE09E⟩,
   ⟨0xF0FF, 0xE0A1⟩] ++
  [⟨0xF0FF, 0xF007⟩, ⟨0xF0FF, 0xF00A⟩, ⟨0xF0FF, 0xF015⟩, ⟨0xF0FF, 0xF018⟩, ⟨0xF0FF, 0xF01E⟩, ⟨0xF0FF, 0xF029⟩,
   ⟨0xF0FF, 0xF033⟩, ⟨0xF0FF, 0xF055⟩, ⟨0xF0FF, 0xF065⟩]

/-- The word the opcode table's numbering gives: `nbits` bits of `w`, every bit above them 0 (an instruction is 16 bits, R70). -/
def tableWord (nbits w : Nat) : Word := BitVec.ofNat 16 (w % 2 ^ nbits)

/-- What the decoder reads from an instruction whose bits are `w`, laid out in memory as the hardware stores it. -/
def decodeTableWord (nbits w : Nat) : Option Instr :=
  match decodeBytes [hiByte (tableWord nbits w), loByte (tableWord nbits w)] with
  | .ok (i, _) => some i
  | .error _ => none

end Sys2Proof
end

