-- ==== Sys2Proof/Machine/State.lean ====
section
/-! DEFINITION. The state as plain data (10_state R20), the fatal conditions (60_exceptions R200, R209), the refusals,
and the state after `RESET` (10_state R37, 70_reset_and_hazards R230). -/

namespace Sys2Proof.Machine

/-- `Mem` (10_state R32). `Memory.wf` says the canonical form of `cells` holds. -/
structure Memory where
  /-- The parameter `FONT` (00_scope R5), which `RESET` writes to addresses 0..79 (R232). No part of the machine's state:
  it is given with the machine and nothing changes it (entry 3). -/
  font : Vector Byte Config.fontSize
  /-- The bytes that differ from what an unlisted address reads as (`Memory.default`), by rising address. -/
  cells : List Host.Cell
  deriving DecidableEq, Repr

/-- The display buffer `D` (10_state R31): row `y` is entry `y`, the cell at column `x` is bit `x` of it
(entry 7: the layout is the model's own and no program can see it). -/
abbrev Display := Vector (BitVec 64) 32

/-- What the outside world presents at one `TICK`, and the `FRAME`s it issues before the next (00_scope R6, R7).
The model's own (entries 1 and 2). -/
structure Inputs where
  /-- Bit `k` is `KeyDown(k)`. -/
  keys : BitVec 16
  /-- Which of several down keys `KeyAny` names, where that key is down. -/
  keyChoice : Nibble
  /-- `RandomByte`. -/
  randomByte : Byte
  /-- How many `FRAME` events fall between this `TICK` and the next. -/
  frames : Nat
  deriving DecidableEq, Repr

/-- How far the host is in the boot order of 70_reset_and_hazards R235. The model's own (entry 9). -/
inductive BootPhase where
  /-- After `RESET`: a `LOAD_ROM` is in order. -/
  | fresh
  /-- After a `LOAD_ROM` that returned ok. -/
  | loaded
  /-- A `TICK` has happened. -/
  | started
  deriving DecidableEq, Repr

/-- The fault report of R209 beside its kind: the opcode word (0x0000 for a fetch fault), the `PC` of the faulting
instruction, and `info` (R200). -/
structure Report where
  op : Word
  pc : Word
  info : Word
  deriving DecidableEq, Repr

/-- The fatal conditions, the complete list of R200. A fault ends the run (R210, R211); nothing is changed (R208). -/
inductive Fault where
  /-- Raised by `step` when the fetched word selects no row of the opcode map (R201); info is the word. Safe: the spec's own fault. -/
  | invalidOpcode (r : Report)
  /-- Raised by `CALL addr` when `SP = 15` (R204); info is `SP`. Safe: the spec's own fault. -/
  | stackOverflow (r : Report)
  /-- Raised by `RET` when `SP = 0` (R205); info is `SP`. Safe: the spec's own fault. -/
  | stackUnderflow (r : Report)
  /-- Raised by the fetch (R202) and by `DRW`, `LD B`, `LD [I], Vx`, `LD Vx, [I]` (R203) when an address above 4095
  would be accessed; info is the smallest such address. Safe: the spec's own fault. -/
  | memoryOutOfRange (r : Report)
  /-- Raised by `SKP` and `SKNP` when `V[x]` > 0xF (R206); info is `V[x]`. Safe: the spec's own fault. -/
  | keyOutOfRange (r : Report)
  deriving DecidableEq, Repr

/-- Where the model gives no meaning. -/
inductive Refusal where
  /-- An instruction the model has not reached; raised by an arm of `exec` only, and no arm raises it. Safe. -/
  | notModelled (mnemonic : String)
  /-- Raised by `RET` when `SP` > 16, where the entry `Stack[SP - 1]` does not exist: a state the invariant of R27 rules
  out and no run from reset reaches (entry 4). Safe. -/
  | stackEntryMissing (sp : Byte)
  deriving DecidableEq, Repr

/-- The whole state (R20), and three fields of the model's own that stand for the host. -/
structure State where
  /-- `V[0..15]` (R21); `VF` is `V[15]` (R22). -/
  v : Vector Byte 16
  /-- The index register `I` (R23). -/
  idx : Word
  /-- `PC` (R24). -/
  pc : Word
  /-- `SP` (R27). -/
  sp : Byte
  /-- `Stack[0..15]` (R28). -/
  stack : Vector Word 16
  /-- The delay timer `DT` (R29). -/
  dt : Byte
  /-- The sound timer `ST` (R30). -/
  st : Byte
  /-- The display buffer `D` (R31). -/
  display : Display
  /-- `Mem` (R32). -/
  mem : Memory
  /-- The latch `Halted` and its report (R33, R209): none while running. -/
  halted : Option Fault
  /-- The model's own (entry 1): how many `TICK`s have completed; the free inputs are read at this number. -/
  tickNo : Nat
  /-- The model's own (entry 1): the inputs of the next `TICK`s that are settled; past its end they are free. -/
  script : List Inputs
  /-- The model's own (entry 9): how far the host is in the boot order (R235). -/
  boot : BootPhase
  deriving DecidableEq, Repr

/-- The state after `RESET` of a machine with this `FONT` (R37, R230, R231). Memory lists nothing: it reads as `FONT` at
0..79 and zero elsewhere. -/
def State.resetWith (font : Vector Byte Config.fontSize) : State where
  v := Vector.replicate 16 0
  idx := 0
  pc := 0x200
  sp := 0
  stack := Vector.replicate 16 0
  dt := 0
  st := 0
  display := Vector.replicate 32 0
  mem := { font := font, cells := [] }
  halted := none
  tickNo := 0
  script := []
  boot := .fresh

/-- The state after `RESET` of a machine with the default `FONT` (R232). DESIGN CHOICE (entry 3), unsafe: the bytes are the
spec's default for an OPEN parameter; `State.resetWith` is the same state for every `FONT`. -/
def State.reset : State := State.resetWith Config.defaultFont

end Sys2Proof.Machine
end

