-- ==== Sys2Proof/Machine/Flags.lean ====
section
/-! DEFINITION. The values written to `VF` as a flag (10_state R22, 41_load_arith_logic R132). -/

namespace Sys2Proof.Machine

/-- The flag is always written as 0x00 or 0x01 (R22). -/
def flagByte (c : Bool) : Byte := if c then 0x01 else 0x00

/-- The carry of `8xy4`: the exact sum exceeds 255 (R126). -/
def carryOut (a b : Byte) : Bool := decide (a.toNat + b.toNat > 255)

/-- The no-borrow flag of `a - b`: the minuend is at least the subtrahend, equality included (R127, R129). -/
def noBorrow (a b : Byte) : Bool := decide (a.toNat ≥ b.toNat)

/-- The bit a right shift by one puts out: the old bit 0 (R128). -/
def shiftedOutRight (a : Byte) : Bool := a.getLsbD 0

/-- The bit a left shift by one puts out: the old bit 7 (R130). -/
def shiftedOutLeft (a : Byte) : Bool := a.getLsbD 7

end Sys2Proof.Machine
end

