-- ==== Sys2Proof/Machine/Memory.lean ====
section
/-! DEFINITION. The operations over memory (20_memory R50 to R53, R56): one byte at an address that exists. The range check
stands in Machine/Operands.lean, in front of every access. -/

namespace Sys2Proof.Machine

/-! The list of cells. -/

/-- The entry listed for an address, if there is one. -/
def findCell : List Host.Cell → Nat → Option Byte
  | [], _ => none
  | (k, b) :: rest, a => if a = k then some b else findCell rest a

/-- Take every entry of an address out of the list. -/
def eraseCell : List Host.Cell → Nat → List Host.Cell
  | [], _ => []
  | (k, b) :: rest, a => if a = k then eraseCell rest a else (k, b) :: eraseCell rest a

/-- List a byte at its place in the order, in the place of the entry the address had. -/
def insertCell : List Host.Cell → Nat → Byte → List Host.Cell
  | [], a, v => [(a, v)]
  | (k, b) :: rest, a, v =>
    if a < k then (a, v) :: (k, b) :: rest
    else if a = k then (a, v) :: rest
    else (k, b) :: insertCell rest a v

/-! The memory. -/

/-- What an address nothing has written reads as: the reset contents of 10_state R37, `FONT` at 0..79 and 0x00 elsewhere. -/
def Memory.default (m : Memory) (a : Nat) : Byte := (m.font[a]?).getD 0

/-- `Mem[a]` (R52). -/
def Memory.read (m : Memory) (a : Nat) : Byte := (findCell m.cells a).getD (m.default a)

/-- `Mem[a] <- v` (R53), in canonical form: a byte equal to what an unlisted address reads as is not listed. -/
def Memory.write (m : Memory) (a : Nat) (v : Byte) : Memory :=
  { m with cells := if v = m.default a then eraseCell m.cells a else insertCell m.cells a v }

/-- Bytes at rising addresses from `a` (the order of R64). -/
def Memory.writeList (m : Memory) (a : Nat) : List Byte → Memory
  | [] => m
  | b :: bs => Memory.writeList (m.write a b) (a + 1) bs

/-- The bytes at `a`, `a + 1`, ... (the order of R64). -/
def Memory.readList (m : Memory) (a : Nat) : Nat → List Byte
  | 0 => []
  | n + 1 => m.read a :: Memory.readList m (a + 1) n

/-- The canonical form of the cells `l` of a memory, above a bound: addresses strictly rising, each of them in the memory,
and no entry equal to what an unlisted address reads as. -/
def Memory.wfFrom (m : Memory) (lo : Nat) : List Host.Cell → Bool
  | [] => true
  | (k, b) :: rest => decide (lo ≤ k) && decide (k < Config.memSize) && (b != m.default k) && Memory.wfFrom m (k + 1) rest

/-- The canonical form: equal memories are equal data. -/
def Memory.wf (m : Memory) : Bool := m.wfFrom 0 m.cells

end Sys2Proof.Machine
end

