-- ==== Sys2Proof/Machine/Ops.lean ====
section
/-! DEFINITION. The named operations over the registers, the program counter, the stack, the timers, the inputs and the
fault latch. Every meaning reads and writes the state through these. -/

namespace Sys2Proof.Machine

/-! One update per field. -/

def State.setRegs (s : State) (v : Vector Byte 16) : State := { s with v := v }
def State.setIdx (s : State) (w : Word) : State := { s with idx := w }
def State.setPc (s : State) (w : Word) : State := { s with pc := w }
def State.setSp (s : State) (b : Byte) : State := { s with sp := b }
def State.setStack (s : State) (k : Vector Word 16) : State := { s with stack := k }
def State.setDt (s : State) (b : Byte) : State := { s with dt := b }
def State.setSt (s : State) (b : Byte) : State := { s with st := b }
def State.setDisplay (s : State) (d : Display) : State := { s with display := d }
def State.setMem (s : State) (m : Memory) : State := { s with mem := m }

/-! General registers (10_state R21). -/

/-- `V[x]`. -/
def State.getV (s : State) (x : Nibble) : Byte := s.v[x.toNat]'(x.isLt)

/-- `V[x] <- b`. -/
def State.setV (s : State) (x : Nibble) (b : Byte) : State := s.setRegs (s.v.set x.toNat b x.isLt)

/-! The program counter (10_state R24, R25): sums are reduced modulo 65536. -/

/-- The generic advance, `PC <- (PC + 2) mod 65536` (R25). -/
def State.advance (s : State) : State := s.setPc (s.pc + 2)

/-- A skip: `PC + 4` if the condition holds, else `PC + 2` (R25, 40_control_flow R100e). -/
def State.skipIf (s : State) (c : Bool) : State := s.setPc (if c then s.pc + 4 else s.pc + 2)

/-- `pc <- zext_16(addr)` (30_encoding R74). -/
def State.jump (s : State) (addr : Addr) : State := s.setPc (addr.setWidth 16)

/-! The stack (10_state R27, R28). -/

/-- `Stack[k]`, where that entry exists. -/
def State.stackEntry (s : State) (k : Nat) : Option Word := s.stack[k]?

/-- `Stack[SP] <- w`, then `SP <- SP + 1` (R27, R103); the check of `SP` stands in front of it. -/
def State.push (s : State) (w : Word) : State :=
  (s.setStack (s.stack.setIfInBounds s.sp.toNat w)).setSp (s.sp + 1)

/-! Inputs (00_scope R7, R6): what is settled, else the free constants (entries 1 and 2). -/

/-- The free inputs of the `TICK` numbered `n`. -/
def freeInputs (n : Nat) : Inputs where
  keys := Config.keysAt n
  keyChoice := Config.keyChoiceAt n
  randomByte := Config.randomByteAt n
  frames := Config.framesAfter n

/-- The inputs at this `TICK`. -/
def State.inputs (s : State) : Inputs :=
  match s.script with
  | i :: _ => i
  | [] => freeInputs s.tickNo

/-- `KeyDown(k)` (R7). -/
def State.keyDown (s : State) (k : Nibble) : Bool := s.inputs.keys.getLsbD k.toNat

/-- The lowest-numbered key that is down, of the keys `k` to `k + n - 1`. -/
def lowestDown (keys : BitVec 16) (k : Nat) : Nat → Option Nibble
  | 0 => none
  | n + 1 => if keys.getLsbD k then some (BitVec.ofNat 4 k) else lowestDown keys (k + 1) n

/-- `KeyAny` (R7): a key that is down, none exactly when no key is. Which one of several is the host's free choice: the
key `keyChoice` names where it is down, and every down key can be named so. -/
def State.keyAny (s : State) : Option Nibble :=
  if s.keyDown s.inputs.keyChoice then some s.inputs.keyChoice else lowestDown s.inputs.keys 0 16

/-- `RandomByte` (R7, 10_state R34). -/
def State.randomByte (s : State) : Byte := s.inputs.randomByte

/-! The timers (60_exceptions R215, R216). -/

/-- One decrement: by 1 if nonzero (R215). -/
def countDown (t : Byte) : Byte := if t = 0 then t else t - 1

/-- `k` decrements at once. -/
def countDownBy (k : Nat) (t : Byte) : Byte := if t = 0 then t else BitVec.ofNat 8 (t.toNat - k)

/-- The `FRAME` event (R215); nothing while halted (R211). -/
def State.frame (s : State) : State :=
  if s.halted.isSome then s else (s.setDt (countDown s.dt)).setSt (countDown s.st)

/-- `k` `FRAME` events. -/
def State.frames (s : State) (k : Nat) : State :=
  if s.halted.isSome then s else (s.setDt (countDownBy k s.dt)).setSt (countDownBy k s.st)

/-- A `TICK` has completed: the inputs move on to those of the next one, and the boot order is past its load (R235). -/
def State.moveOn (s : State) : State := { s with tickNo := s.tickNo + 1, script := s.script.tail, boot := .started }

/-- What follows a completed `TICK` in a step: the `FRAME`s the host issues before the next `TICK` (R6), then its inputs. -/
def State.endTick (s : State) : State := (s.frames s.inputs.frames).moveOn

/-! Fatal conditions (60_exceptions R200, R208 to R211). -/

/-- `raise <Fault>(info)` by an executing instruction (00_scope R11): the report holds the instruction's word, the `PC`
it stands at and `info` (R209); no state goes with it (R208). -/
def raise (kind : Report → Fault) (i : Instr) (info : Word) (s : State) : Host.Outcome State Fault Refusal :=
  .fault (kind { op := encode i, pc := s.pc, info := info })

/-- Entry to the halted state: `Halted <- 1` and the report, nothing else (R210). -/
def State.halt (s : State) (f : Fault) : State := { s with halted := some f }

/-- The numeric code of a fault kind (R200, 92_eei_decisions D19). -/
def Fault.code : Fault → Nat
  | .invalidOpcode _ => 1
  | .stackOverflow _ => 2
  | .stackUnderflow _ => 3
  | .memoryOutOfRange _ => 4
  | .keyOutOfRange _ => 5

/-- The report that goes with the kind (R209). -/
def Fault.report : Fault → Report
  | .invalidOpcode r => r
  | .stackOverflow r => r
  | .stackUnderflow r => r
  | .memoryOutOfRange r => r
  | .keyOutOfRange r => r

end Sys2Proof.Machine
end

