-- ==== Sys2Proof/Machine/Arith.lean ====
section
/-! DEFINITION. Load, arithmetic, logic, shift and random (41_load_arith_logic R119 to R133). None of them can fault
(R119a); operands are read before any write (R119d). -/

namespace Sys2Proof.Machine

/-- A result without a flag: `V[x] <- r`, then the generic advance. -/
def State.result (s : State) (x : Nibble) (r : Byte) : State := (s.setV x r).advance

/-- A result with a flag, in the order of R133: `V[x] <- r`, then `V[0xF] <- flag`, which wins where `x` is 0xF. -/
def State.resultFlag (s : State) (x : Nibble) (r : Byte) (c : Bool) : State := ((s.setV x r).setV 0xF (flagByte c)).advance

/-- LD Vx, kk (R120). -/
def execLdImm (x : Nibble) (kk : Byte) (s : State) : Host.Outcome State Fault Refusal :=
  .next (s.result x kk)

/-- ADD Vx, kk (R121): modulo 256, no flag. -/
def execAddImm (x : Nibble) (kk : Byte) (s : State) : Host.Outcome State Fault Refusal :=
  .next (s.result x (s.getV x + kk))

/-- LD Vx, Vy (R122). -/
def execLdReg (x y : Nibble) (s : State) : Host.Outcome State Fault Refusal :=
  .next (s.result x (s.getV y))

/-- OR Vx, Vy (R123): no flag. -/
def execOrReg (x y : Nibble) (s : State) : Host.Outcome State Fault Refusal :=
  .next (s.result x (s.getV x ||| s.getV y))

/-- AND Vx, Vy (R124): no flag. -/
def execAndReg (x y : Nibble) (s : State) : Host.Outcome State Fault Refusal :=
  .next (s.result x (s.getV x &&& s.getV y))

/-- XOR Vx, Vy (R125): no flag. -/
def execXorReg (x y : Nibble) (s : State) : Host.Outcome State Fault Refusal :=
  .next (s.result x (s.getV x ^^^ s.getV y))

/-- ADD Vx, Vy (R126): `VF` is the carry. -/
def execAddReg (x y : Nibble) (s : State) : Host.Outcome State Fault Refusal :=
  .next (s.resultFlag x (s.getV x + s.getV y) (carryOut (s.getV x) (s.getV y)))

/-- SUB Vx, Vy (R127): `VF` is no-borrow. -/
def execSubReg (x y : Nibble) (s : State) : Host.Outcome State Fault Refusal :=
  .next (s.resultFlag x (s.getV x - s.getV y) (noBorrow (s.getV x) (s.getV y)))

/-- SHR Vx (R128): logical, by one; `V[y]` plays no part. -/
def execShr (x : Nibble) (s : State) : Host.Outcome State Fault Refusal :=
  .next (s.resultFlag x (s.getV x >>> 1) (shiftedOutRight (s.getV x)))

/-- SUBN Vx, Vy (R129): `V[y] - V[x]`, `VF` is no-borrow. -/
def execSubnReg (x y : Nibble) (s : State) : Host.Outcome State Fault Refusal :=
  .next (s.resultFlag x (s.getV y - s.getV x) (noBorrow (s.getV y) (s.getV x)))

/-- SHL Vx (R130): by one; `V[y]` plays no part. -/
def execShl (x : Nibble) (s : State) : Host.Outcome State Fault Refusal :=
  .next (s.resultFlag x (s.getV x <<< 1) (shiftedOutLeft (s.getV x)))

/-- RND Vx, kk (R131): the random byte of this `TICK`, a free value (entry 1), and `kk`. -/
def execRnd (x : Nibble) (kk : Byte) (s : State) : Host.Outcome State Fault Refusal :=
  .next (s.result x (s.randomByte &&& kk))

end Sys2Proof.Machine
end

