-- ==== Sys2Proof/Machine/Control.lean ====
section
/-! DEFINITION. Control transfer (40_control_flow R100 to R108). `PC` is the address of the instruction itself (10_state R24). -/

namespace Sys2Proof.Machine

/-- RET (R101): pop, then the address after the call. -/
def execRet (m : Nibble) (s : State) : Host.Outcome State Fault Refusal :=
  if s.sp = 0 then raise .stackUnderflow (.ret m) (s.sp.setWidth 16) s
  else
    match s.stackEntry (s.sp.toNat - 1) with
    | some ra => .next ((s.setSp (s.sp - 1)).setPc (ra + 2))
    | none => .refused (.stackEntryMissing s.sp)

/-- JP addr (R102). -/
def execJpAddr (addr : Addr) (s : State) : Host.Outcome State Fault Refusal :=
  .next (s.jump addr)

/-- CALL addr (R103): the address pushed is the call's own. -/
def execCallAddr (addr : Addr) (s : State) : Host.Outcome State Fault Refusal :=
  if s.sp.toNat ≥ Config.spMax then raise .stackOverflow (.callAddr addr) (s.sp.setWidth 16) s
  else .next ((s.push s.pc).jump addr)

/-- SE Vx, kk (R104). -/
def execSeImm (x : Nibble) (kk : Byte) (s : State) : Host.Outcome State Fault Refusal :=
  .next (s.skipIf (s.getV x == kk))

/-- SNE Vx, kk (R105). -/
def execSneImm (x : Nibble) (kk : Byte) (s : State) : Host.Outcome State Fault Refusal :=
  .next (s.skipIf (s.getV x != kk))

/-- SE Vx, Vy (R106). -/
def execSeReg (x y : Nibble) (s : State) : Host.Outcome State Fault Refusal :=
  .next (s.skipIf (s.getV x == s.getV y))

/-- SNE Vx, Vy (R107). -/
def execSneReg (x y : Nibble) (s : State) : Host.Outcome State Fault Refusal :=
  .next (s.skipIf (s.getV x != s.getV y))

/-- JP V0, addr (R108): no mask, at most 0x10FE. -/
def execJpV0 (addr : Addr) (s : State) : Host.Outcome State Fault Refusal :=
  .next (s.setPc ((s.getV 0).setWidth 16 + addr.setWidth 16))

end Sys2Proof.Machine
end

