-- ==== Sys2Proof/Machine/Operands.lean ====
section
/-! DEFINITION. The data addressing mode, index plus constant offset (42_index_memory R156), with its range check
(20_memory R52, R53), the register groups `V0..Vx`, the digits of `LD B`, and the fetch (30_encoding R71). -/

namespace Sys2Proof.Machine

/-- The smallest of the addresses `a`, ..., `a + n - 1` that exceeds 4095, if one does (R202, R203). The addresses are
exact integers (R156). -/
def firstOutOfRange (a n : Nat) : Option Nat :=
  if n = 0 ∨ a + n ≤ Config.memSize then none else some (max a Config.memSize)

/-- `n` reads `MemRead(a + k, 1)`, or the smallest address out of range (R52). -/
def State.readBytes (s : State) (a n : Nat) : Except Nat (List Byte) :=
  match firstOutOfRange a n with
  | some bad => .error bad
  | none => .ok (s.mem.readList a n)

/-- The writes `MemWrite(a + k, 1, b_k)`, or the smallest address out of range and no write (R53, R208). -/
def State.writeBytes (s : State) (a : Nat) (bs : List Byte) : Except Nat State :=
  match firstOutOfRange a bs.length with
  | some bad => .error bad
  | none => .ok (s.setMem (s.mem.writeList a bs))

/-- An out-of-range address as `info` of the report: 16 bits, which every first bad address fits (entry 5). -/
def addressInfo (a : Nat) : Word := BitVec.ofNat 16 a

/-- `I` as an exact integer, the base of every data access (R156). -/
def State.base (s : State) : Nat := s.idx.toNat

/-- `V[0]`, ..., `V[x]` (42_index_memory R154). -/
def State.regsUpTo (s : State) (x : Nibble) : List Byte := s.v.toList.take (x.toNat + 1)

/-- `V[k]`, `V[k + 1]`, ... become the bytes of the list (R155). -/
def loadFrom (v : Vector Byte 16) (k : Nat) : List Byte → Vector Byte 16
  | [] => v
  | b :: bs => loadFrom (v.setIfInBounds k b) (k + 1) bs

/-- Hundreds, tens and ones, a number 0..9 each (42_index_memory R153). -/
def bcdDigits (b : Byte) : List Byte :=
  [BitVec.ofNat 8 (b.toNat / 100), BitVec.ofNat 8 (b.toNat / 10 % 10), BitVec.ofNat 8 (b.toNat % 10)]

/-- The fetch of the word at `PC` (30_encoding R71): big-endian, `PC + 1` an exact integer; a fetch fault reports the
opcode 0x0000 (R209). -/
def State.fetch (s : State) : Except Fault Word :=
  match firstOutOfRange s.pc.toNat 2 with
  | some bad => .error (.memoryOutOfRange { op := 0, pc := s.pc, info := addressInfo bad })
  | none => .ok (wordOf (s.mem.read s.pc.toNat) (s.mem.read (s.pc.toNat + 1)))

end Sys2Proof.Machine
end

