-- ==== Sys2Proof/Machine/Display.lean ====
section
/-! DEFINITION. The display buffer and its two instructions (43_display R170 to R174). -/

namespace Sys2Proof.Machine

/-- `D[px][py]` (10_state R31). -/
def Display.cell (d : Display) (px : Fin 64) (py : Fin 32) : Bool := d[py].getLsbD px

/-- `D[px][py] <- D[px][py] ^ 1`. -/
def Display.flip (d : Display) (px : Fin 64) (py : Fin 32) : Display := d.set py (d[py] ^^^ BitVec.twoPow 64 px)

/-- Every cell off (R170). -/
def Display.clear : Display := Vector.replicate 32 0

/-- A column, wrapped: `n mod 64` (R172). -/
def wrapX (n : Nat) : Fin 64 := ⟨n % 64, Nat.mod_lt n (by decide)⟩

/-- A row, wrapped: `n mod 32` (R172). -/
def wrapY (n : Nat) : Fin 32 := ⟨n % 32, Nat.mod_lt n (by decide)⟩

/-- One sprite bit onto one cell, the body of R172's loops; the Bool is `collision`. -/
def drawBit (px : Fin 64) (py : Fin 32) (bit : Bool) (acc : Display × Bool) : Display × Bool :=
  if bit then (acc.1.flip px py, acc.2 || acc.1.cell px py) else acc

/-- One row byte: `bit_index` `b` is bit `7 - b` of it (R172). -/
def drawRow (ox y : Nat) (row : Byte) (acc : Display × Bool) : Display × Bool :=
  (List.range 8).foldl (fun a b => drawBit (wrapX (ox + b)) (wrapY y) (row.getLsbD (7 - b)) a) acc

/-- The rows from row `y` down (R172). -/
def drawRows (ox y : Nat) : List Byte → Display × Bool → Display × Bool
  | [], acc => acc
  | row :: rest, acc => drawRows ox (y + 1) rest (drawRow ox y row acc)

/-- `draw_sprite(ox, oy, rows)`: the display after it, and `collision` (R172). -/
def drawSprite (d : Display) (ox oy : Nat) (rows : List Byte) : Display × Bool := drawRows ox oy rows (d, false)

/-- What `DRW` does with the rows it has read: the display, then `VF`, then the advance (R171). -/
def State.drawn (s : State) (x y : Nibble) (rows : List Byte) : State :=
  ((s.setDisplay (drawSprite s.display (s.getV x).toNat (s.getV y).toNat rows).1).setV 0xF
    (flagByte (drawSprite s.display (s.getV x).toNat (s.getV y).toNat rows).2)).advance

/-- CLS (R170). -/
def execCls (s : State) : Host.Outcome State Fault Refusal :=
  .next (s.setDisplay Display.clear).advance

/-- DRW Vx, Vy, n (R171). -/
def execDrw (x y n : Nibble) (s : State) : Host.Outcome State Fault Refusal :=
  match s.readBytes s.base n.toNat with
  | .error bad => raise .memoryOutOfRange (.drw x y n) (addressInfo bad) s
  | .ok rows => .next (s.drawn x y rows)

end Sys2Proof.Machine
end

