-- ==== Sys2Proof/Machine/Index.lean ====
section
/-! DEFINITION. Index register and memory transfer (42_index_memory R149 to R156). `I` is never changed by an access (R156). -/

namespace Sys2Proof.Machine

/-- LD I, addr (R150). -/
def execLdI (addr : Addr) (s : State) : Host.Outcome State Fault Refusal :=
  .next (s.setIdx (addr.setWidth 16)).advance

/-- ADD I, Vx (R151): modulo 65536, no flag, no fault. -/
def execAddI (x : Nibble) (s : State) : Host.Outcome State Fault Refusal :=
  .next (s.setIdx (s.idx + (s.getV x).setWidth 16)).advance

/-- LD F, Vx (R152): `V[x] * 5`, no mask, no memory touched. -/
def execLdF (x : Nibble) (s : State) : Host.Outcome State Fault Refusal :=
  .next (s.setIdx ((s.getV x).setWidth 16 * 5)).advance

/-- LD B, Vx (R153): three digits at `I`, `I + 1`, `I + 2`. -/
def execLdB (x : Nibble) (s : State) : Host.Outcome State Fault Refusal :=
  match s.writeBytes s.base (bcdDigits (s.getV x)) with
  | .error bad => raise .memoryOutOfRange (.ldB x) (addressInfo bad) s
  | .ok t => .next t.advance

/-- LD [I], Vx (R154): `V[0]`, ..., `V[x]` to `I`, ..., `I + x`. -/
def execStoreRegs (x : Nibble) (s : State) : Host.Outcome State Fault Refusal :=
  match s.writeBytes s.base (s.regsUpTo x) with
  | .error bad => raise .memoryOutOfRange (.storeRegs x) (addressInfo bad) s
  | .ok t => .next t.advance

/-- LD Vx, [I] (R155): `V[0]`, ..., `V[x]` from `I`, ..., `I + x`. -/
def execLoadRegs (x : Nibble) (s : State) : Host.Outcome State Fault Refusal :=
  match s.readBytes s.base (x.toNat + 1) with
  | .error bad => raise .memoryOutOfRange (.loadRegs x) (addressInfo bad) s
  | .ok bs => .next (s.setRegs (loadFrom s.v 0 bs)).advance

end Sys2Proof.Machine
end

