-- ==== Sys2Proof/Machine/KeysTimers.lean ====
section
/-! DEFINITION. Keypad and timer instructions (44_keys_timers R179 to R186). The key inputs are those of this `TICK` (R179c). -/

namespace Sys2Proof.Machine

/-- The key value a register holds, where it is one of 0x0..0xF (R183). -/
def keyOf (b : Byte) : Option Nibble := if b.toNat > 0xF then none else some (b.setWidth 4)

/-- SKP Vx (R180). -/
def execSkp (x : Nibble) (s : State) : Host.Outcome State Fault Refusal :=
  match keyOf (s.getV x) with
  | none => raise .keyOutOfRange (.skp x) ((s.getV x).setWidth 16) s
  | some k => .next (s.skipIf (s.keyDown k))

/-- SKNP Vx (R181). -/
def execSknp (x : Nibble) (s : State) : Host.Outcome State Fault Refusal :=
  match keyOf (s.getV x) with
  | none => raise .keyOutOfRange (.sknp x) ((s.getV x).setWidth 16) s
  | some k => .next (s.skipIf (!s.keyDown k))

/-- LD Vx, DT (R182). -/
def execLdVxDt (x : Nibble) (s : State) : Host.Outcome State Fault Refusal :=
  .next (s.setV x s.dt).advance

/-- What `LD Vx, K` does with the answer of `KeyAny` (R184): with no key down nothing changes, not even `PC`. -/
def State.takeKey (s : State) (x : Nibble) : Option Nibble → State
  | none => s
  | some k => (s.setV x (k.setWidth 8)).advance

/-- LD Vx, K (R184): the wait is a completed `TICK` whose next state is the same. -/
def execLdVxK (x : Nibble) (s : State) : Host.Outcome State Fault Refusal :=
  .next (s.takeKey x s.keyAny)

/-- LD DT, Vx (R185). -/
def execLdDtVx (x : Nibble) (s : State) : Host.Outcome State Fault Refusal :=
  .next (s.setDt (s.getV x)).advance

/-- LD ST, Vx (R186). -/
def execLdStVx (x : Nibble) (s : State) : Host.Outcome State Fault Refusal :=
  .next (s.setSt (s.getV x)).advance

end Sys2Proof.Machine
end

