-- ==== Sys2Proof/Machine/Tick.lean ====
section
/-! DEFINITION. The `TICK` of a running machine (30_encoding R84). -/

namespace Sys2Proof.Machine

/-- Fetch, decode, execute, in this order (R84, 60_exceptions R207); what decodes to no instruction is the fatal
`InvalidOpcode` with the word and its `PC` (R201). -/
def tick (s : State) : Host.Outcome State Fault Refusal :=
  match s.fetch with
  | .error f => .fault f
  | .ok op =>
    match decodeWord op with
    | .error _ => .fault (.invalidOpcode { op := op, pc := s.pc, info := op })
    | .ok i => exec i s

end Sys2Proof.Machine
end

