-- ==== Sys2Proof/Machine/Step.lean ====
section
/-! DEFINITION. One step: the `TICK` of 30_encoding R84, then the `FRAME`s the host issues before the next (00_scope R6). -/

namespace Sys2Proof.Machine

/-- A halted machine does nothing (60_exceptions R211); a running one performs a `TICK`, and where that completes the
`FRAME`s before the next `TICK` follow (entry 2). -/
def step (s : State) : Host.Outcome State Fault Refusal :=
  if s.halted.isSome then .next s
  else
    match tick s with
    | .next t => .next t.endTick
    | .fault f => .fault f
    | .refused r => .refused r

/-- Where `step` fetches, in a state made to run an instruction: at `PC`, or at the entry point where no whole word
lies at `PC` (R202). -/
def State.fetchAddress (s : State) : Nat :=
  if s.pc.toNat + 1 < Config.memSize then s.pc.toNat else Config.progBase

/-- The state with an instruction of the opcode table's numbering stored where `step` fetches next, the high byte first
(R71), and the machine running (entry 10). -/
def State.withFetchWord (s : State) (nbits w : Nat) : State :=
  { s with
    pc := BitVec.ofNat 16 s.fetchAddress
    mem := s.mem.writeList s.fetchAddress [hiByte (tableWord nbits w), loByte (tableWord nbits w)]
    halted := none }

end Sys2Proof.Machine
end

