-- ==== Sys2Proof/Machine/Events.lean ====
section
/-! DEFINITION. The events of 00_scope R6 and R9 one by one, with the latch of 10_state R33, and the outputs of R8. `step`
is the same machine with the latch left to the fault outcome (R33, 60_exceptions R211) and the `FRAME`s taken in with
the `TICK` before them. -/

namespace Sys2Proof.Machine

/-- What a `LOAD_ROM` returns (70_reset_and_hazards R234, R235). -/
inductive LoadResult where
  /-- The image lies in memory. -/
  | ok (s : State)
  /-- The image is longer than 3584 bytes; nothing is written (60_exceptions R221). -/
  | romTooLarge
  /-- The block is halted (R211); nothing is written. -/
  | notAccepted
  /-- A second load, or a load after the first `TICK`, to which the spec gives no meaning (R235, entry 9). -/
  | outOfOrder
  deriving DecidableEq, Repr

/-- `LOAD_ROM(bytes)` (R234): the image goes to 0x200 upward, nothing else changes. -/
def loadRom (bytes : List Byte) (s : State) : LoadResult :=
  if s.halted.isSome then .notAccepted
  else if s.boot ≠ .fresh then .outOfOrder
  else if bytes.length > Config.romMax then .romTooLarge
  else .ok { s with mem := s.mem.writeList Config.progBase bytes, boot := .loaded }

/-- `RESET` (R230): every piece of the block's state at its reset value, memory from the machine's `FONT`; the outside
world goes on where it is. -/
def resetEvent (s : State) : State := { State.resetWith s.mem.font with tickNo := s.tickNo, script := s.script }

/-- `TICK` with the latch (R84): a fault leaves the state as it was but for `Halted` and the report (R208, R210); a halted
block does nothing (R211); none where the model gives no meaning (entry 4). -/
def tickEvent (s : State) : Option State :=
  if s.halted.isSome then some s
  else
    match tick s with
    | .next t => some t.moveOn
    | .fault f => some (s.halt f)
    | .refused _ => none

/-- What can happen to the block (R6, R9). -/
inductive HostEvent where
  | reset
  | loadRom (bytes : List Byte)
  | tick
  | frame
  deriving DecidableEq, Repr

/-- One event; none where the spec gives it no meaning. -/
def applyEvent (s : State) : HostEvent → Option State
  | .reset => some (resetEvent s)
  | .loadRom bytes =>
    match loadRom bytes s with
    | .ok t => some t
    | .romTooLarge => some s
    | .notAccepted => some s
    | .outOfOrder => none
  | .tick => tickEvent s
  | .frame => some s.frame

/-- Whole events, one after the other (R6). -/
def applyEvents (s : State) : List HostEvent → Option State
  | [] => some s
  | e :: es =>
    match applyEvent s e with
    | some t => applyEvents t es
    | none => none

/-! The outputs of R8. -/

/-- (a) The display cell at column `px`, row `py`. -/
def State.displayOut (s : State) (px : Fin 64) (py : Fin 32) : Bool := s.display.cell px py

/-- (b) The memory byte at an address, where it exists. -/
def State.memoryOut (s : State) (a : Nat) : Option Byte := if a < Config.memSize then some (s.mem.read a) else none

/-- (c) The fault report: code, opcode, `PC`, `info`; none while running (R209). -/
def State.faultReport (s : State) : Option (Nat × Report) := s.halted.map fun f => (f.code, f.report)

/-- (d) `SoundOn`, equal to `ST ≠ 0`. -/
def State.soundOn (s : State) : Bool := s.st != 0

end Sys2Proof.Machine
end

