-- ==== Sys2Proof/Safety.lean ====
section
/-! DEFINITION. The terms claims are stated in: the invariant, what an instruction keeps, safe runs, parked states. -/

namespace Sys2Proof

open Sys2Proof.Machine

/-- The invariant: `SP` never exceeds 15 (10_state R27), and memory is in its canonical form. -/
def Machine.State.Inv (s : State) : Prop := s.sp.toNat ≤ Config.spMax ∧ s.mem.wf = true

/-! Frames. Each says that one kind of state reads the same in two states. -/

/-- Every general register outside `changed` keeps its value. -/
def KeepsRegsBut (changed : Nibble → Prop) (s t : State) : Prop := ∀ r : Nibble, ¬ changed r → t.getV r = s.getV r

/-- Every general register keeps its value. -/
def KeepsRegs (s t : State) : Prop := ∀ r : Nibble, t.getV r = s.getV r

/-- `I` keeps its value. -/
def KeepsIndex (s t : State) : Prop := t.idx = s.idx

/-- `SP` and every stack entry keep their values. -/
def KeepsStack (s t : State) : Prop := t.sp = s.sp ∧ ∀ k : Nat, t.stackEntry k = s.stackEntry k

/-- Both timers keep their values. -/
def KeepsTimers (s t : State) : Prop := t.dt = s.dt ∧ t.st = s.st

/-- Every display cell keeps its value. -/
def KeepsDisplay (s t : State) : Prop := ∀ (px : Fin 64) (py : Fin 32), t.display.cell px py = s.display.cell px py

/-- Every byte of memory reads as before. -/
def KeepsMem (s t : State) : Prop := ∀ a : Nat, t.mem.read a = s.mem.read a

/-- Every byte of memory outside the `n` bytes at `a` reads as before. -/
def KeepsMemOutside (a n : Nat) (s t : State) : Prop := ∀ b : Nat, (b < a ∨ a + n ≤ b) → t.mem.read b = s.mem.read b

/-- The latch, what stands for the host, and the parameter `FONT` are as before. -/
def KeepsHost (s t : State) : Prop :=
  t.halted = s.halted ∧ t.tickNo = s.tickNo ∧ t.script = s.script ∧ t.boot = s.boot ∧ t.mem.font = s.mem.font

/-- Nothing but general registers and `PC` differs. -/
def KeepsBeyondRegs (s t : State) : Prop :=
  KeepsIndex s t ∧ KeepsStack s t ∧ KeepsTimers s t ∧ KeepsDisplay s t ∧ KeepsMem s t ∧ KeepsHost s t

/-- The final `PC` of an instruction that neither jumps nor skips (10_state R25). -/
def Advances (s t : State) : Prop := t.pc.toNat = (s.pc.toNat + 2) % 65536

/-- The final `PC` of a skip on a condition (R25). -/
def Skips (c : Prop) (s t : State) : Prop :=
  (c → t.pc.toNat = (s.pc.toNat + 4) % 65536) ∧ (¬ c → t.pc.toNat = (s.pc.toNat + 2) % 65536)

/-- `bad` is the smallest of the addresses `a`, ..., `a + n - 1` that exceeds 4095 (60_exceptions R203). -/
def FirstBad (a n bad : Nat) : Prop := a ≤ bad ∧ bad < a + n ∧ 4095 < bad ∧ ∀ b, a ≤ b → b < bad → b ≤ 4095

/-- A sprite of these row bytes with its origin at `(ox, oy)` has a 1-bit on the cell `(px, py)` (43_display R172). -/
def SpriteHits (ox oy : Nat) (rows : List Byte) (px : Fin 64) (py : Fin 32) : Prop :=
  ∃ (r b : Nat) (row : Byte), rows[r]? = some row ∧ b < 8 ∧ row.getLsbD (7 - b) = true ∧
    (px : Nat) = (ox + b) % 64 ∧ (py : Nat) = (oy + r) % 32

/-- `k` steps complete without a fault and without a refusal. -/
def SafeFor : Nat → State → Prop
  | 0, _ => True
  | k + 1, s => ∃ t, step s = .next t ∧ SafeFor k t

/-- The state is parked: the word at `PC` is a jump to `PC` itself (70_reset_and_hazards R236). -/
def Parked (s : State) : Prop :=
  s.pc.toNat ≤ 0xFFE ∧ wordOf (s.mem.read s.pc.toNat) (s.mem.read (s.pc.toNat + 1)) = 0x1000 ||| s.pc

/-- The premise a claim about glyphs needs (R232): the machine's `FONT` is the default. -/
def FontIsDefault (s : State) : Prop := s.mem.font = Config.defaultFont

/-- The premise on the host that liveness of a timer wait needs: in an infinite run `FRAME` occurs infinitely often (R241). -/
def FairFrames : Prop := ∀ n : Nat, ∃ m, n ≤ m ∧ 0 < Config.framesAfter m

/-- The host's read of `KeyDown` and `KeyAny` within one `TICK` agrees (00_scope R7). -/
def KeysConsistent (s : State) : Prop :=
  (s.keyAny = none ↔ ∀ k : Nibble, s.keyDown k = false) ∧ ∀ k : Nibble, s.keyAny = some k → s.keyDown k = true

end Sys2Proof
end

