-- ==== Sys2Proof/Certificates/Slice0/Obligations.lean ====
section
/-! DEFINITION. The statements for the provers, from the numbered rules of spec/. An encoding clause is the rule's own
encoding line; `e mod m` of the rules is the remainder of exact integers (00_scope R11). -/

open Sys2Proof Sys2Proof.Machine

/-! ## The instruction word -/

/-- R72, R73, R75, R76: what the encoder lays out the decoder reads back, every operand at every value, whatever bytes
follow. The bits the decoder does not examine (R78) are fields of `Instr` by the model's own choice (entry 12). -/
def Obligations.DecodeOfEncodeIsIdentity : Prop :=
  ∀ (i : Instr) (rest : List Byte), decodeBytes (encodeBytes i ++ rest) = .ok (i, rest)

/-- A word that decodes is the encoding of what it decodes to. By the rules alone (R75, R78) decoding is many to one: 0x0AE0
is plain `00E0`. That no bit of a word is dropped is the model's own choice (entry 12): the bits not examined, and the
unused `y` of the shifts, are kept as fields of `Instr`. -/
def Obligations.EncodeOfDecodeIsIdentity : Prop :=
  ∀ (op : Word) (i : Instr), decodeWord op = .ok i → encode i = op

/-- R77, R76: a word is invalid exactly when it selects no row of the opcode map; a valid word selects the row of its
instruction and no other. -/
def Obligations.InvalidExactlyWhenNoRowSelected : Prop :=
  ∀ op : Word,
    (decodeWord op = .error (.invalidOpcode op) ↔ ∀ r ∈ opcodeMap, r.selects op = false) ∧
    (∀ e, decodeWord op = .error e → e = .invalidOpcode op) ∧
    (∀ i, decodeWord op = .ok i → ∀ r ∈ opcodeMap, r.selects op = true ↔ r = opcodeRow i)

/-- R76: words written out from the encodings decode to the instructions they stand for (a sanity statement). -/
def Obligations.SampleWordsDecode : Prop :=
  decodeWord 0x00EE = .ok (.ret 0) ∧
  decodeWord 0x2300 = .ok (.callAddr 0x300) ∧
  decodeWord 0x8AB6 = .ok (.shr 0xA 0xB) ∧
  decodeWord 0xA2F0 = .ok (.ldI 0x2F0) ∧
  decodeWord 0xD7A5 = .ok (.drw 0x7 0xA 0x5) ∧
  decodeWord 0xE29E = .ok (.skp 0x2) ∧
  decodeWord 0xF165 = .ok (.loadRegs 0x1) ∧
  decodeWord 0x00FF = .error (.invalidOpcode 0x00FF)

/-! ## Control transfer -/

/-- R101. -/
def Obligations.RetPopsAndAddsTwo : Prop :=
  ∀ (m : Nibble) (s : State),
    encode (.ret 0) = 0x00EE ∧ encode (.ret m) &&& 0xF0FF = 0x00EE ∧
    (s.sp = 0 → exec (.ret m) s = .fault (.stackUnderflow ⟨encode (.ret m), s.pc, s.sp.setWidth 16⟩)) ∧
    (∀ ra : Word, 1 ≤ s.sp.toNat → s.stackEntry (s.sp.toNat - 1) = some ra →
      ∃ t, exec (.ret m) s = .next t ∧ t.sp.toNat = s.sp.toNat - 1 ∧ t.pc.toNat = (ra.toNat + 2) % 65536 ∧
        (∀ k, t.stackEntry k = s.stackEntry k) ∧ KeepsRegs s t ∧ KeepsIndex s t ∧ KeepsTimers s t ∧ KeepsDisplay s t ∧
        KeepsMem s t ∧ KeepsHost s t)

/-- R102. -/
def Obligations.JpGoesToAddress : Prop :=
  ∀ (addr : Addr) (s : State),
    encode (.jpAddr addr) = 0x1000 ||| addr.setWidth 16 ∧
    ∃ t, exec (.jpAddr addr) s = .next t ∧ t.pc.toNat = addr.toNat ∧ KeepsRegs s t ∧ KeepsBeyondRegs s t

/-- R103. -/
def Obligations.CallPushesItsOwnAddress : Prop :=
  ∀ (addr : Addr) (s : State),
    encode (.callAddr addr) = 0x2000 ||| addr.setWidth 16 ∧
    (15 ≤ s.sp.toNat → exec (.callAddr addr) s = .fault (.stackOverflow ⟨encode (.callAddr addr), s.pc, s.sp.setWidth 16⟩)) ∧
    (s.sp.toNat < 15 →
      ∃ t, exec (.callAddr addr) s = .next t ∧ t.stackEntry s.sp.toNat = some s.pc ∧
        (∀ k, k ≠ s.sp.toNat → t.stackEntry k = s.stackEntry k) ∧ t.sp.toNat = s.sp.toNat + 1 ∧ t.pc.toNat = addr.toNat ∧
        KeepsRegs s t ∧ KeepsIndex s t ∧ KeepsTimers s t ∧ KeepsDisplay s t ∧ KeepsMem s t ∧ KeepsHost s t)

/-- R104, R105, R106, R107: the four skips; `m` is not examined (R78). -/
def Obligations.SkipsAddFourOrTwo : Prop :=
  ∀ (x y m : Nibble) (kk : Byte) (s : State),
    encode (.seImm x kk) = 0x3000 ||| x.setWidth 16 <<< 8 ||| kk.setWidth 16 ∧
    encode (.sneImm x kk) = 0x4000 ||| x.setWidth 16 <<< 8 ||| kk.setWidth 16 ∧
    encode (.seReg x y 0) = 0x5000 ||| x.setWidth 16 <<< 8 ||| y.setWidth 16 <<< 4 ∧
    encode (.sneReg x y 0) = 0x9000 ||| x.setWidth 16 <<< 8 ||| y.setWidth 16 <<< 4 ∧
    (∃ t, exec (.seImm x kk) s = .next t ∧ Skips (s.getV x = kk) s t ∧ KeepsRegs s t ∧ KeepsBeyondRegs s t) ∧
    (∃ t, exec (.sneImm x kk) s = .next t ∧ Skips (s.getV x ≠ kk) s t ∧ KeepsRegs s t ∧ KeepsBeyondRegs s t) ∧
    (∃ t, exec (.seReg x y m) s = .next t ∧ Skips (s.getV x = s.getV y) s t ∧ KeepsRegs s t ∧ KeepsBeyondRegs s t) ∧
    (∃ t, exec (.sneReg x y m) s = .next t ∧ Skips (s.getV x ≠ s.getV y) s t ∧ KeepsRegs s t ∧ KeepsBeyondRegs s t)

/-- R108: the exact sum, never reduced. -/
def Obligations.JpV0AddsV0Unmasked : Prop :=
  ∀ (addr : Addr) (s : State),
    encode (.jpV0 addr) = 0xB000 ||| addr.setWidth 16 ∧
    ∃ t, exec (.jpV0 addr) s = .next t ∧ t.pc.toNat = (s.getV 0).toNat + addr.toNat ∧ KeepsRegs s t ∧ KeepsBeyondRegs s t

/-! ## Load, arithmetic, logic, shift, random -/

/-- R120, R122. -/
def Obligations.LoadsCopyTheirOperand : Prop :=
  ∀ (x y : Nibble) (kk : Byte) (s : State),
    encode (.ldImm x kk) = 0x6000 ||| x.setWidth 16 <<< 8 ||| kk.setWidth 16 ∧
    encode (.ldReg x y) = 0x8000 ||| x.setWidth 16 <<< 8 ||| y.setWidth 16 <<< 4 ∧
    (∃ t, exec (.ldImm x kk) s = .next t ∧ t.getV x = kk ∧ KeepsRegsBut (· = x) s t ∧ Advances s t ∧ KeepsBeyondRegs s t) ∧
    (∃ t, exec (.ldReg x y) s = .next t ∧ t.getV x = s.getV y ∧ KeepsRegsBut (· = x) s t ∧ Advances s t ∧ KeepsBeyondRegs s t)

/-- R121: `VF` is not written unless it is the destination. -/
def Obligations.AddImmediateWrapsWithoutFlag : Prop :=
  ∀ (x : Nibble) (kk : Byte) (s : State),
    encode (.addImm x kk) = 0x7000 ||| x.setWidth 16 <<< 8 ||| kk.setWidth 16 ∧
    ∃ t, exec (.addImm x kk) s = .next t ∧ (t.getV x).toNat = ((s.getV x).toNat + kk.toNat) % 256 ∧
      KeepsRegsBut (· = x) s t ∧ Advances s t ∧ KeepsBeyondRegs s t

/-- R123, R124, R125: bit by bit; `VF` is not written unless it is the destination. -/
def Obligations.LogicIsBitwiseWithoutFlag : Prop :=
  ∀ (x y : Nibble) (s : State),
    encode (.orReg x y) = 0x8001 ||| x.setWidth 16 <<< 8 ||| y.setWidth 16 <<< 4 ∧
    encode (.andReg x y) = 0x8002 ||| x.setWidth 16 <<< 8 ||| y.setWidth 16 <<< 4 ∧
    encode (.xorReg x y) = 0x8003 ||| x.setWidth 16 <<< 8 ||| y.setWidth 16 <<< 4 ∧
    (∃ t, exec (.orReg x y) s = .next t ∧
      (∀ b, (t.getV x).getLsbD b = ((s.getV x).getLsbD b || (s.getV y).getLsbD b)) ∧
      KeepsRegsBut (· = x) s t ∧ Advances s t ∧ KeepsBeyondRegs s t) ∧
    (∃ t, exec (.andReg x y) s = .next t ∧
      (∀ b, (t.getV x).getLsbD b = ((s.getV x).getLsbD b && (s.getV y).getLsbD b)) ∧
      KeepsRegsBut (· = x) s t ∧ Advances s t ∧ KeepsBeyondRegs s t) ∧
    (∃ t, exec (.xorReg x y) s = .next t ∧
      (∀ b, (t.getV x).getLsbD b = ((s.getV x).getLsbD b ^^ (s.getV y).getLsbD b)) ∧
      KeepsRegsBut (· = x) s t ∧ Advances s t ∧ KeepsBeyondRegs s t)

/-- R126: the flag is written last, so it is what `VF` holds also where `x` is 0xF. -/
def Obligations.AddSetsCarry : Prop :=
  ∀ (x y : Nibble) (s : State),
    encode (.addReg x y) = 0x8004 ||| x.setWidth 16 <<< 8 ||| y.setWidth 16 <<< 4 ∧
    ∃ t, exec (.addReg x y) s = .next t ∧
      (x ≠ 0xF → (t.getV x).toNat = ((s.getV x).toNat + (s.getV y).toNat) % 256) ∧
      t.getV 0xF = (if (s.getV x).toNat + (s.getV y).toNat > 255 then 1 else 0) ∧
      KeepsRegsBut (fun r => r = x ∨ r = 0xF) s t ∧ Advances s t ∧ KeepsBeyondRegs s t

/-- R127, R129: the remainder of the exact difference; the flag is no-borrow, equality included, written last. -/
def Obligations.SubtractionsSetNoBorrow : Prop :=
  ∀ (x y : Nibble) (s : State),
    encode (.subReg x y) = 0x8005 ||| x.setWidth 16 <<< 8 ||| y.setWidth 16 <<< 4 ∧
    encode (.subnReg x y) = 0x8007 ||| x.setWidth 16 <<< 8 ||| y.setWidth 16 <<< 4 ∧
    (∃ t, exec (.subReg x y) s = .next t ∧
      (x ≠ 0xF → ((t.getV x).toNat : Int) = ((s.getV x).toNat - (s.getV y).toNat : Int) % 256) ∧
      t.getV 0xF = (if (s.getV x).toNat ≥ (s.getV y).toNat then 1 else 0) ∧
      KeepsRegsBut (fun r => r = x ∨ r = 0xF) s t ∧ Advances s t ∧ KeepsBeyondRegs s t) ∧
    (∃ t, exec (.subnReg x y) s = .next t ∧
      (x ≠ 0xF → ((t.getV x).toNat : Int) = ((s.getV y).toNat - (s.getV x).toNat : Int) % 256) ∧
      t.getV 0xF = (if (s.getV y).toNat ≥ (s.getV x).toNat then 1 else 0) ∧
      KeepsRegsBut (fun r => r = x ∨ r = 0xF) s t ∧ Advances s t ∧ KeepsBeyondRegs s t)

/-- R128, R130: one place, 0 in, the bit that falls out in `VF`, written last; `V[y]` plays no part, whatever `y` is. -/
def Obligations.ShiftsPutTheBitOutInVF : Prop :=
  ∀ (x y : Nibble) (s : State),
    encode (.shr x y) = 0x8006 ||| x.setWidth 16 <<< 8 ||| y.setWidth 16 <<< 4 ∧
    encode (.shl x y) = 0x800E ||| x.setWidth 16 <<< 8 ||| y.setWidth 16 <<< 4 ∧
    (∃ t, exec (.shr x y) s = .next t ∧
      (x ≠ 0xF → (t.getV x).toNat = (s.getV x).toNat / 2) ∧ (t.getV 0xF).toNat = (s.getV x).toNat % 2 ∧
      KeepsRegsBut (fun r => r = x ∨ r = 0xF) s t ∧ Advances s t ∧ KeepsBeyondRegs s t) ∧
    (∃ t, exec (.shl x y) s = .next t ∧
      (x ≠ 0xF → (t.getV x).toNat = (s.getV x).toNat * 2 % 256) ∧ (t.getV 0xF).toNat = (s.getV x).toNat / 128 ∧
      KeepsRegsBut (fun r => r = x ∨ r = 0xF) s t ∧ Advances s t ∧ KeepsBeyondRegs s t)

/-- R133, R22: with `VF` as the destination of the five, the flag survives and the result is lost; the operands are the
values read at the start. -/
def Obligations.FlagSurvivesAsDestination : Prop :=
  ∀ (y : Nibble) (s t : State),
    (exec (.addReg 0xF y) s = .next t → t.getV 0xF = (if (s.getV 0xF).toNat + (s.getV y).toNat > 255 then 1 else 0)) ∧
    (exec (.subReg 0xF y) s = .next t → t.getV 0xF = (if (s.getV 0xF).toNat ≥ (s.getV y).toNat then 1 else 0)) ∧
    (exec (.subnReg 0xF y) s = .next t → t.getV 0xF = (if (s.getV y).toNat ≥ (s.getV 0xF).toNat then 1 else 0)) ∧
    (exec (.shr 0xF y) s = .next t → t.getV 0xF = (if (s.getV 0xF).getLsbD 0 then 1 else 0)) ∧
    (exec (.shl 0xF y) s = .next t → t.getV 0xF = (if (s.getV 0xF).getLsbD 7 then 1 else 0))

/-- R131: the random byte of this `TICK` (a free value: nothing is said of it) masked by `kk`; every byte is possible. -/
def Obligations.RndMasksAFreeByte : Prop :=
  ∀ (x : Nibble) (kk : Byte) (s : State),
    encode (.rnd x kk) = 0xC000 ||| x.setWidth 16 <<< 8 ||| kk.setWidth 16 ∧
    (∃ t, exec (.rnd x kk) s = .next t ∧ t.getV x = s.randomByte &&& kk ∧ t.getV x &&& ~~~kk = 0 ∧
      KeepsRegsBut (· = x) s t ∧ Advances s t ∧ KeepsBeyondRegs s t) ∧
    (∀ r : Byte, ∃ (sc : List Inputs) (t : State), exec (.rnd x kk) { s with script := sc } = .next t ∧ t.getV x = r &&& kk)

/-! ## Index register and memory transfer -/

/-- R150. -/
def Obligations.LdIndexTakesTheAddress : Prop :=
  ∀ (addr : Addr) (s : State),
    encode (.ldI addr) = 0xA000 ||| addr.setWidth 16 ∧
    ∃ t, exec (.ldI addr) s = .next t ∧ t.idx.toNat = addr.toNat ∧ Advances s t ∧ KeepsRegs s t ∧ KeepsStack s t ∧
      KeepsTimers s t ∧ KeepsDisplay s t ∧ KeepsMem s t ∧ KeepsHost s t

/-- R151: 16 bits are kept, no flag and no fault. -/
def Obligations.AddIndexWrapsAtSixteenBits : Prop :=
  ∀ (x : Nibble) (s : State),
    encode (.addI x) = 0xF01E ||| x.setWidth 16 <<< 8 ∧
    ∃ t, exec (.addI x) s = .next t ∧ t.idx.toNat = (s.idx.toNat + (s.getV x).toNat) % 65536 ∧ Advances s t ∧
      KeepsRegs s t ∧ KeepsStack s t ∧ KeepsTimers s t ∧ KeepsDisplay s t ∧ KeepsMem s t ∧ KeepsHost s t

/-- R152: the exact product, no mask on `V[x]`. -/
def Obligations.LdFontAddressIsFiveTimes : Prop :=
  ∀ (x : Nibble) (s : State),
    encode (.ldF x) = 0xF029 ||| x.setWidth 16 <<< 8 ∧
    ∃ t, exec (.ldF x) s = .next t ∧ t.idx.toNat = (s.getV x).toNat * 5 ∧ Advances s t ∧
      KeepsRegs s t ∧ KeepsStack s t ∧ KeepsTimers s t ∧ KeepsDisplay s t ∧ KeepsMem s t ∧ KeepsHost s t

/-- R153: the digits at the three bytes from `I`, or the fault with the first bad address. -/
def Obligations.BcdStoresThreeDigits : Prop :=
  ∀ (x : Nibble) (s : State),
    encode (.ldB x) = 0xF033 ||| x.setWidth 16 <<< 8 ∧
    (s.idx.toNat + 2 ≤ 4095 →
      ∃ t, exec (.ldB x) s = .next t ∧
        (t.mem.read s.idx.toNat).toNat = (s.getV x).toNat / 100 ∧
        (t.mem.read (s.idx.toNat + 1)).toNat = (s.getV x).toNat / 10 % 10 ∧
        (t.mem.read (s.idx.toNat + 2)).toNat = (s.getV x).toNat % 10 ∧
        KeepsMemOutside s.idx.toNat 3 s t ∧ Advances s t ∧ KeepsRegs s t ∧ KeepsIndex s t ∧ KeepsStack s t ∧
        KeepsTimers s t ∧ KeepsDisplay s t ∧ KeepsHost s t) ∧
    (s.idx.toNat + 2 > 4095 →
      ∃ bad, FirstBad s.idx.toNat 3 bad ∧
        exec (.ldB x) s = .fault (.memoryOutOfRange ⟨encode (.ldB x), s.pc, BitVec.ofNat 16 bad⟩))

/-- R154: `V[0]` to `V[x]` at the bytes from `I`, or the fault with the first bad address. -/
def Obligations.StoreRegsStoresTheGroup : Prop :=
  ∀ (x : Nibble) (s : State),
    encode (.storeRegs x) = 0xF055 ||| x.setWidth 16 <<< 8 ∧
    (s.idx.toNat + x.toNat ≤ 4095 →
      ∃ t, exec (.storeRegs x) s = .next t ∧
        (∀ k : Nibble, k.toNat ≤ x.toNat → t.mem.read (s.idx.toNat + k.toNat) = s.getV k) ∧
        KeepsMemOutside s.idx.toNat (x.toNat + 1) s t ∧ Advances s t ∧ KeepsRegs s t ∧ KeepsIndex s t ∧ KeepsStack s t ∧
        KeepsTimers s t ∧ KeepsDisplay s t ∧ KeepsHost s t) ∧
    (s.idx.toNat + x.toNat > 4095 →
      ∃ bad, FirstBad s.idx.toNat (x.toNat + 1) bad ∧
        exec (.storeRegs x) s = .fault (.memoryOutOfRange ⟨encode (.storeRegs x), s.pc, BitVec.ofNat 16 bad⟩))

/-- R155: `V[0]` to `V[x]` from the bytes from `I`, the registers above unchanged, or the fault with the first bad address. -/
def Obligations.LoadRegsLoadsTheGroup : Prop :=
  ∀ (x : Nibble) (s : State),
    encode (.loadRegs x) = 0xF065 ||| x.setWidth 16 <<< 8 ∧
    (s.idx.toNat + x.toNat ≤ 4095 →
      ∃ t, exec (.loadRegs x) s = .next t ∧
        (∀ k : Nibble, k.toNat ≤ x.toNat → t.getV k = s.mem.read (s.idx.toNat + k.toNat)) ∧
        KeepsRegsBut (fun r => r.toNat ≤ x.toNat) s t ∧ Advances s t ∧ KeepsBeyondRegs s t) ∧
    (s.idx.toNat + x.toNat > 4095 →
      ∃ bad, FirstBad s.idx.toNat (x.toNat + 1) bad ∧
        exec (.loadRegs x) s = .fault (.memoryOutOfRange ⟨encode (.loadRegs x), s.pc, BitVec.ofNat 16 bad⟩))

/-- R155's round trip: whatever the registers hold in between, with the same `I` and memory the group comes back. -/
def Obligations.StoreThenLoadRestoresTheGroup : Prop :=
  ∀ (x : Nibble) (s : State), s.idx.toNat + x.toNat ≤ 4095 →
    ∃ t, exec (.storeRegs x) s = .next t ∧
      ∀ u : State, KeepsIndex t u → KeepsMem t u →
        ∃ w, exec (.loadRegs x) u = .next w ∧ ∀ k : Nibble, k.toNat ≤ x.toNat → w.getV k = s.getV k

/-! ## Display -/

/-- R170; `m` is not examined (R78). -/
def Obligations.ClsClearsEveryCell : Prop :=
  ∀ (m : Nibble) (s : State),
    encode (.cls 0) = 0x00E0 ∧ encode (.cls m) &&& 0xF0FF = 0x00E0 ∧
    ∃ t, exec (.cls m) s = .next t ∧ (∀ px py, t.display.cell px py = false) ∧ Advances s t ∧ KeepsRegs s t ∧
      KeepsIndex s t ∧ KeepsStack s t ∧ KeepsTimers s t ∧ KeepsMem s t ∧ KeepsHost s t

/-- R171: the rows are the `n` bytes from `I`; with `n = 0` nothing is read and `VF` becomes 0. -/
def Obligations.DrwDrawsTheRowsAtI : Prop :=
  ∀ (x y n : Nibble) (s : State),
    encode (.drw x y n) = 0xD000 ||| x.setWidth 16 <<< 8 ||| y.setWidth 16 <<< 4 ||| n.setWidth 16 ∧
    (n.toNat = 0 ∨ s.idx.toNat + n.toNat - 1 ≤ 4095 →
      ∃ (t : State) (rows : List Byte), exec (.drw x y n) s = .next t ∧ rows.length = n.toNat ∧
        (∀ r, r < n.toNat → rows[r]? = some (s.mem.read (s.idx.toNat + r))) ∧
        t.display = (drawSprite s.display (s.getV x).toNat (s.getV y).toNat rows).1 ∧
        t.getV 0xF = (if (drawSprite s.display (s.getV x).toNat (s.getV y).toNat rows).2 then 1 else 0) ∧
        KeepsRegsBut (· = 0xF) s t ∧ Advances s t ∧ KeepsIndex s t ∧ KeepsStack s t ∧ KeepsTimers s t ∧ KeepsMem s t ∧
        KeepsHost s t) ∧
    (n.toNat > 0 ∧ s.idx.toNat + n.toNat - 1 > 4095 →
      ∃ bad, FirstBad s.idx.toNat n.toNat bad ∧
        exec (.drw x y n) s = .fault (.memoryOutOfRange ⟨encode (.drw x y n), s.pc, BitVec.ofNat 16 bad⟩))

/-- R172: the loops of `draw_sprite` invert exactly the cells a 1-bit lands on, wrapped at both edges, and the value
they return is 1 exactly when some cell was turned off. -/
def Obligations.SpriteXorsTheCellsItHits : Prop :=
  ∀ (d : Display) (ox oy : Nat) (rows : List Byte), rows.length ≤ 15 →
    (∀ (px : Fin 64) (py : Fin 32),
      (SpriteHits ox oy rows px py → (drawSprite d ox oy rows).1.cell px py = !d.cell px py) ∧
      (¬ SpriteHits ox oy rows px py → (drawSprite d ox oy rows).1.cell px py = d.cell px py)) ∧
    ((drawSprite d ox oy rows).2 = true ↔
      ∃ px py, d.cell px py = true ∧ (drawSprite d ox oy rows).1.cell px py = false)

/-- R173: collision exactly when a 1-bit lands on a cell that was on before the instruction. -/
def Obligations.CollisionIsAnOnCellHit : Prop :=
  ∀ (d : Display) (ox oy : Nat) (rows : List Byte), rows.length ≤ 15 →
    ((drawSprite d ox oy rows).2 = true ↔ ∃ px py, SpriteHits ox oy rows px py ∧ d.cell px py = true)

/-- R172, R173 (and R174's bullet on drawing twice, entry 14): the second draw of a sprite restores the display, and it
collides exactly when some 1-bit lands on a cell that was off before the first; on a display clear under the sprite
that is when the sprite has a 1-bit. -/
def Obligations.DrawingTwiceRestoresTheDisplay : Prop :=
  ∀ (d : Display) (ox oy : Nat) (rows : List Byte), rows.length ≤ 15 →
    (drawSprite (drawSprite d ox oy rows).1 ox oy rows).1 = d ∧
    ((drawSprite (drawSprite d ox oy rows).1 ox oy rows).2 = true ↔
      ∃ px py, SpriteHits ox oy rows px py ∧ d.cell px py = false) ∧
    ((∀ px py, SpriteHits ox oy rows px py → d.cell px py = false) →
      ((drawSprite (drawSprite d ox oy rows).1 ox oy rows).2 = true ↔ ∃ row ∈ rows, row ≠ 0))

/-! ## Keys and timers -/

/-- R180, R181, with the key range of R183. -/
def Obligations.KeySkipsTestTheLevel : Prop :=
  ∀ (x : Nibble) (s : State),
    encode (.skp x) = 0xE09E ||| x.setWidth 16 <<< 8 ∧
    encode (.sknp x) = 0xE0A1 ||| x.setWidth 16 <<< 8 ∧
    ((s.getV x).toNat > 15 →
      exec (.skp x) s = .fault (.keyOutOfRange ⟨encode (.skp x), s.pc, (s.getV x).setWidth 16⟩) ∧
      exec (.sknp x) s = .fault (.keyOutOfRange ⟨encode (.sknp x), s.pc, (s.getV x).setWidth 16⟩)) ∧
    (∀ k : Nibble, (s.getV x).toNat = k.toNat →
      (∃ t, exec (.skp x) s = .next t ∧ Skips (s.keyDown k = true) s t ∧ KeepsRegs s t ∧ KeepsBeyondRegs s t) ∧
      (∃ t, exec (.sknp x) s = .next t ∧ Skips (s.keyDown k = false) s t ∧ KeepsRegs s t ∧ KeepsBeyondRegs s t))

/-- R182, R185, R186. -/
def Obligations.TimerMovesAreDirect : Prop :=
  ∀ (x : Nibble) (s : State),
    encode (.ldVxDt x) = 0xF007 ||| x.setWidth 16 <<< 8 ∧
    encode (.ldDtVx x) = 0xF015 ||| x.setWidth 16 <<< 8 ∧
    encode (.ldStVx x) = 0xF018 ||| x.setWidth 16 <<< 8 ∧
    (∃ t, exec (.ldVxDt x) s = .next t ∧ t.getV x = s.dt ∧ KeepsRegsBut (· = x) s t ∧ Advances s t ∧ KeepsBeyondRegs s t) ∧
    (∃ t, exec (.ldDtVx x) s = .next t ∧ t.dt = s.getV x ∧ t.st = s.st ∧ Advances s t ∧ KeepsRegs s t ∧ KeepsIndex s t ∧
      KeepsStack s t ∧ KeepsDisplay s t ∧ KeepsMem s t ∧ KeepsHost s t) ∧
    (∃ t, exec (.ldStVx x) s = .next t ∧ t.st = s.getV x ∧ t.dt = s.dt ∧ Advances s t ∧ KeepsRegs s t ∧ KeepsIndex s t ∧
      KeepsStack s t ∧ KeepsDisplay s t ∧ KeepsMem s t ∧ KeepsHost s t)

/-- R184: with no key down nothing at all changes, else the key's value is stored. -/
def Obligations.WaitForKeyRepeatsOrStores : Prop :=
  ∀ (x : Nibble) (s : State),
    encode (.ldVxK x) = 0xF00A ||| x.setWidth 16 <<< 8 ∧
    (s.keyAny = none → exec (.ldVxK x) s = .next s) ∧
    (∀ k : Nibble, s.keyAny = some k →
      ∃ t, exec (.ldVxK x) s = .next t ∧ (t.getV x).toNat = k.toNat ∧ KeepsRegsBut (· = x) s t ∧ Advances s t ∧
        KeepsBeyondRegs s t)

/-- R7: `KeyAny` agrees with `KeyDown`, and with the same keys down each of them can be the one named. -/
def Obligations.KeyInputsAreConsistent : Prop :=
  (∀ s : State, KeysConsistent s) ∧
  (∀ (s : State) (i : Inputs) (k : Nibble), i.keys.getLsbD k.toNat = true →
    ∃ c : Nibble, State.keyAny { s with script := [{ i with keyChoice := c }] } = some k)

/-! ## The cycle, faults, events -/

/-- R84: `step` runs the instruction decoded at `PC`. What stands around `exec`: after it completes, the timers count down
by the `FRAME`s before the next `TICK` (entry 2) and the inputs move on, nothing else changes. -/
def Obligations.StepRunsTheDecodedInstruction : Prop :=
  (∀ (s : State) (i : Instr), s.halted = none → s.pc.toNat ≤ 0xFFE →
    decodeWord (wordOf (s.mem.read s.pc.toNat) (s.mem.read (s.pc.toNat + 1))) = .ok i →
    (∀ t, exec i s = .next t → step s = .next t.endTick) ∧
    (∀ f, exec i s = .fault f → step s = .fault f) ∧
    (∀ r, exec i s = .refused r → step s = .refused r)) ∧
  (∀ t : State, t.halted = none →
    t.endTick.dt.toNat = t.dt.toNat - t.inputs.frames ∧ t.endTick.st.toNat = t.st.toNat - t.inputs.frames ∧
    KeepsRegs t t.endTick ∧ t.endTick.pc = t.pc ∧ KeepsIndex t t.endTick ∧ KeepsStack t t.endTick ∧
    KeepsDisplay t t.endTick ∧ KeepsMem t t.endTick ∧ t.endTick.mem.font = t.mem.font ∧ t.endTick.halted = none ∧ t.endTick.tickNo = t.tickNo + 1 ∧
    t.endTick.script = t.script.tail ∧ t.endTick.boot = .started)

/-- R71: two bytes, big-endian, from an even or odd `PC`; past the end a fault that reports opcode 0x0000 and the `PC`. -/
def Obligations.FetchIsBigEndianAndBounded : Prop :=
  ∀ s : State,
    (s.pc.toNat + 1 ≤ 4095 →
      ∃ op : Word, s.fetch = .ok op ∧ op.toNat = (s.mem.read s.pc.toNat).toNat * 256 + (s.mem.read (s.pc.toNat + 1)).toNat) ∧
    (s.pc.toNat > 4095 → s.fetch = .error (.memoryOutOfRange ⟨0, s.pc, s.pc⟩)) ∧
    (s.pc.toNat = 4095 → s.fetch = .error (.memoryOutOfRange ⟨0, s.pc, 0x1000⟩))

/-- R201, R77: a word that selects no row is fatal, with the word and its `PC` in the report and nothing else changed. -/
def Obligations.InvalidWordIsFatal : Prop :=
  ∀ s : State, s.halted = none → s.pc.toNat ≤ 0xFFE → ∀ op : Word,
    op = wordOf (s.mem.read s.pc.toNat) (s.mem.read (s.pc.toNat + 1)) → (∀ r ∈ opcodeMap, r.selects op = false) →
    step s = .fault (.invalidOpcode ⟨op, s.pc, op⟩) ∧ tickEvent s = some (s.halt (.invalidOpcode ⟨op, s.pc, op⟩))

/-- R202: a `PC` of 0xFFF or above is fatal at the fetch; `info` is `PC`, or `PC + 1` where that is the first bad address. -/
def Obligations.FetchPastTheEndIsFatal : Prop :=
  ∀ s : State, s.halted = none → 0xFFF ≤ s.pc.toNat →
    step s = .fault (.memoryOutOfRange ⟨0, s.pc, if s.pc.toNat > 4095 then s.pc else s.pc + 1⟩)

/-- R200, R203 to R207, R209: which instruction raises which fault, when, and what it reports. -/
def Obligations.EachFaultHasItsInstructionAndReport : Prop :=
  ∀ (i : Instr) (s : State) (f : Fault), exec i s = .fault f →
    f.report.op = encode i ∧ f.report.pc = s.pc ∧
    ((f.code = 3 ∧ (∃ m, i = .ret m) ∧ s.sp = 0 ∧ f.report.info.toNat = s.sp.toNat) ∨
     (f.code = 2 ∧ (∃ a, i = .callAddr a) ∧ 15 ≤ s.sp.toNat ∧ f.report.info.toNat = s.sp.toNat) ∨
     (f.code = 5 ∧ (∃ x, (i = .skp x ∨ i = .sknp x) ∧ 15 < (s.getV x).toNat ∧ f.report.info.toNat = (s.getV x).toNat)) ∨
     (f.code = 4 ∧ ∃ n, ((∃ x y m : Nibble, i = .drw x y m ∧ n = m.toNat) ∨ (∃ x, i = .ldB x ∧ n = 3) ∨
        (∃ x : Nibble, (i = .storeRegs x ∨ i = .loadRegs x) ∧ n = x.toNat + 1)) ∧
        FirstBad s.idx.toNat n f.report.info.toNat))

/-- R208, R210: a faulting `TICK` sets the latch with the report and changes nothing else. -/
def Obligations.FaultsAreLatchedAndPrecise : Prop :=
  ∀ (s : State) (f : Fault), s.halted = none → step s = .fault f →
    f.report.pc = s.pc ∧
    ∃ t, tickEvent s = some t ∧ t.halted = some f ∧ t.pc = s.pc ∧ KeepsRegs s t ∧ KeepsIndex s t ∧ KeepsStack s t ∧
      KeepsTimers s t ∧ KeepsDisplay s t ∧ KeepsMem s t

/-- R211: while halted no event but `RESET` changes anything. -/
def Obligations.HaltedIsAbsorbing : Prop :=
  ∀ s : State, s.halted.isSome = true →
    step s = .next s ∧ (∀ e, e ≠ .reset → applyEvent s e = some s) ∧
    (∃ t, applyEvent s .reset = some t ∧ t.halted = none)

/-- R10: under the invariant a step has two outcomes only, the next state or a fault. -/
def Obligations.StepCompletesOrFaults : Prop :=
  ∀ s : State, s.Inv → (∃ t, step s = .next t) ∨ (∃ f, step s = .fault f)

/-- Entry 4 (the model's own choice): the one refusal of `exec`, for a stack entry that does not exist. -/
def Obligations.OnlyRetRefusesAndOnlyPastTheStack : Prop :=
  ∀ (i : Instr) (s : State) (r : Refusal),
    exec i s = .refused r ↔ (∃ m, i = .ret m) ∧ 16 < s.sp.toNat ∧ r = .stackEntryMissing s.sp

/-- R215. -/
def Obligations.FrameDecrementsNonzeroTimers : Prop :=
  ∀ s : State,
    (s.halted = none →
      (s.dt ≠ 0 → s.frame.dt.toNat = s.dt.toNat - 1) ∧ (s.dt = 0 → s.frame.dt = 0) ∧
      (s.st ≠ 0 → s.frame.st.toNat = s.st.toNat - 1) ∧ (s.st = 0 → s.frame.st = 0) ∧
      s.frame.pc = s.pc ∧ KeepsRegs s s.frame ∧ KeepsIndex s s.frame ∧ KeepsStack s s.frame ∧ KeepsDisplay s s.frame ∧
      KeepsMem s s.frame ∧ KeepsHost s s.frame) ∧
    (s.halted.isSome = true → s.frame = s)

/-- R216: `k` `FRAME` events at once are `k` single ones, and a timer reaches 0 after exactly as many as it holds. -/
def Obligations.TimersReachZeroAfterTheirCount : Prop :=
  ∀ (s : State) (k : Nat), s.halted = none →
    s.frames k = (State.frame)^[k] s ∧
    ((State.frame)^[k] s).dt.toNat = s.dt.toNat - k ∧ ((State.frame)^[k] s).st.toNat = s.st.toNat - k ∧
    (((State.frame)^[k] s).dt = 0 ↔ s.dt.toNat ≤ k)

/-- R6: a step is one `TICK` and the `FRAME`s up to the next, as whole events. -/
def Obligations.StepIsATickThenFrames : Prop :=
  ∀ s t : State, s.halted = none → step s = .next t →
    applyEvents s (.tick :: List.replicate s.inputs.frames .frame) = some t

/-- R37, R230: what `RESET` leaves on a machine with any `FONT` (a parameter of the spec, entry 3), whatever stood before;
memory reads as `FONT`, then zeros. -/
def Obligations.ResetLeavesTheseValues : Prop :=
  ∀ (font : Vector Byte 80) (s u : State), u = State.resetWith font ∨ (u = resetEvent s ∧ s.mem.font = font) →
    (∀ x, u.getV x = 0) ∧ u.idx = 0 ∧ u.pc = 0x200 ∧ u.sp = 0 ∧ (∀ k, k < 16 → u.stackEntry k = some 0) ∧ u.dt = 0 ∧
    u.st = 0 ∧ (∀ px py, u.display.cell px py = false) ∧ (∀ a, (h : a < 80) → u.mem.read a = font[a]) ∧
    (∀ a, 80 ≤ a → a ≤ 4095 → u.mem.read a = 0) ∧ u.halted = none ∧ u.mem.font = font

/-- R27: the invariant holds after reset, whatever the `FONT`. -/
def Obligations.ResetMeetsTheInvariant : Prop :=
  State.reset.Inv ∧ ∀ font : Vector Byte 80, (State.resetWith font).Inv

/-- R27: from every state in which `SP` is at most 15 and memory is in canonical form, a step leads to such a state. -/
def Obligations.EveryStepKeepsTheInvariant : Prop :=
  ∀ s t : State, s.Inv → step s = .next t → t.Inv

/-! ## Whole-machine rules -/

/-- R32: the instructions that write memory are `LD B` and `LD [I], Vx` only, and they write where R67 says. -/
def Obligations.OnlyTwoInstructionsWriteMemory : Prop :=
  ∀ (i : Instr) (s t : State) (a : Nat), exec i s = .next t → t.mem.read a ≠ s.mem.read a →
    s.idx.toNat ≤ a ∧ ((∃ x, i = .ldB x) ∧ a ≤ s.idx.toNat + 2 ∨ ∃ x : Nibble, i = .storeRegs x ∧ a ≤ s.idx.toNat + x.toNat)

/-- R31: the display is mutated only by the clear-screen and the sprite-draw instruction. -/
def Obligations.OnlyClsAndDrwChangeTheDisplay : Prop :=
  ∀ (i : Instr) (s t : State), exec i s = .next t → t.display ≠ s.display → (∃ m, i = .cls m) ∨ ∃ x y n, i = .drw x y n

/-- R23, R27, R28, R216: who changes `I`, `SP`, a stack entry, `DT` and `ST`. -/
def Obligations.SpecialRegistersHaveTheirWriters : Prop :=
  ∀ (i : Instr) (s t : State), exec i s = .next t →
    (t.idx ≠ s.idx → (∃ a, i = .ldI a) ∨ (∃ x, i = .addI x) ∨ ∃ x, i = .ldF x) ∧
    (t.sp ≠ s.sp → (∃ a, i = .callAddr a) ∨ ∃ m, i = .ret m) ∧
    (∀ k, t.stackEntry k ≠ s.stackEntry k → k = s.sp.toNat ∧ ∃ a, i = .callAddr a) ∧
    (t.dt ≠ s.dt → ∃ x, i = .ldDtVx x) ∧
    (t.st ≠ s.st → ∃ x, i = .ldStVx x) ∧
    KeepsHost s t

/-- R22: `VF` changes only as the flag of the six, or as the named destination. -/
def Obligations.OnlySixInstructionsWriteTheFlag : Prop :=
  ∀ (i : Instr) (s t : State), exec i s = .next t → t.getV 0xF ≠ s.getV 0xF →
    (∃ x y, i = .addReg x y ∨ i = .subReg x y ∨ i = .subnReg x y ∨ i = .shr x y ∨ i = .shl x y) ∨
    (∃ x y n, i = .drw x y n) ∨
    (∃ y kk, i = .ldImm 0xF kk ∨ i = .addImm 0xF kk ∨ i = .rnd 0xF kk ∨ i = .ldReg 0xF y ∨ i = .orReg 0xF y ∨
      i = .andReg 0xF y ∨ i = .xorReg 0xF y) ∨
    i = .ldVxDt 0xF ∨ i = .ldVxK 0xF ∨ i = .loadRegs 0xF

/-- R25: the final `PC` of every instruction. -/
def Obligations.EveryInstructionHasItsFinalPc : Prop :=
  ∀ (i : Instr) (s t : State), exec i s = .next t →
    match i with
    | .ret _ => ∃ ra : Word, s.stackEntry (s.sp.toNat - 1) = some ra ∧ t.pc.toNat = (ra.toNat + 2) % 65536
    | .jpAddr addr => t.pc.toNat = addr.toNat
    | .callAddr addr => t.pc.toNat = addr.toNat
    | .seImm x kk => Skips (s.getV x = kk) s t
    | .sneImm x kk => Skips (s.getV x ≠ kk) s t
    | .seReg x y _ => Skips (s.getV x = s.getV y) s t
    | .sneReg x y _ => Skips (s.getV x ≠ s.getV y) s t
    | .jpV0 addr => t.pc.toNat = (s.getV 0).toNat + addr.toNat
    | .skp x => Skips (s.inputs.keys.getLsbD (s.getV x).toNat = true) s t
    | .sknp x => Skips (s.inputs.keys.getLsbD (s.getV x).toNat = false) s t
    | .ldVxK _ => (s.keyAny = none → t.pc = s.pc) ∧ (s.keyAny ≠ none → Advances s t)
    | _ => Advances s t

/-- R84, R7: the inputs are read by `SKP`, `SKNP`, `LD Vx, K` and `RND` only: every other instruction does the same
whatever they are. -/
def Obligations.OnlyFourInstructionsReadInputs : Prop :=
  ∀ (i : Instr) (s : State) (n : Nat) (sc : List Inputs),
    (∀ x kk, i ≠ .rnd x kk) → (∀ x, i ≠ .skp x ∧ i ≠ .sknp x ∧ i ≠ .ldVxK x) →
    (∀ t, exec i s = .next t → exec i { s with tickNo := n, script := sc } = .next { t with tickNo := n, script := sc }) ∧
    (∀ f, exec i s = .fault f → exec i { s with tickNo := n, script := sc } = .fault f) ∧
    (∀ r, exec i s = .refused r → exec i { s with tickNo := n, script := sc } = .refused r)

/-- Equal memories are equal data: two memories of one machine (the same `FONT`) in canonical form that read the same
everywhere are the same data. -/
def Obligations.CanonicalMemoriesAreEqualData : Prop :=
  ∀ m m' : Memory, m.font = m'.font → m.wf = true → m'.wf = true → (∀ a, m.read a = m'.read a) → m = m'

/-- R63: what `LD [I], Vx` or `LD B, Vx` stores at an address is seen by every later fetch that reads the address, at the
very next `TICK` or later: as the high byte of the word where the fetch is at that address, as the low byte where it is
one below. `u` is any state in which nothing has written that one address since the store. -/
def Obligations.StoresAreSeenByTheNextFetch : Prop :=
  ∀ (x : Nibble) (s t u : State), u.pc.toNat + 1 ≤ 4095 →
    ∃ op, u.fetch = .ok op ∧
      (exec (.storeRegs x) s = .next t → ∀ k : Nibble, k.toNat ≤ x.toNat →
        u.mem.read (s.idx.toNat + k.toNat) = t.mem.read (s.idx.toNat + k.toNat) →
        (u.pc.toNat = s.idx.toNat + k.toNat → hiByte op = s.getV k) ∧
        (u.pc.toNat + 1 = s.idx.toNat + k.toNat → loByte op = s.getV k)) ∧
      (exec (.ldB x) s = .next t → ∀ k digit : Nat,
        (k = 0 ∧ digit = (s.getV x).toNat / 100 ∨ k = 1 ∧ digit = (s.getV x).toNat / 10 % 10 ∨
          k = 2 ∧ digit = (s.getV x).toNat % 10) →
        u.mem.read (s.idx.toNat + k) = t.mem.read (s.idx.toNat + k) →
        (u.pc.toNat = s.idx.toNat + k → (hiByte op).toNat = digit) ∧
        (u.pc.toNat + 1 = s.idx.toNat + k → (loByte op).toNat = digit))

/-- R234, R221: the image goes to 0x200 upward and nothing else changes; one that is too large writes nothing. -/
def Obligations.LoadRomCopiesOrRejects : Prop :=
  ∀ (bytes : List Byte) (s : State), s.halted = none → s.boot = .fresh →
    (bytes.length ≤ 3584 →
      ∃ t, loadRom bytes s = .ok t ∧ (∀ k, k < bytes.length → some (t.mem.read (0x200 + k)) = bytes[k]?) ∧
        KeepsMemOutside 0x200 bytes.length s t ∧ t.pc = s.pc ∧ KeepsRegs s t ∧ KeepsIndex s t ∧ KeepsStack s t ∧
        KeepsTimers s t ∧ KeepsDisplay s t ∧ t.halted = none ∧ t.mem.font = s.mem.font ∧ (s.Inv → t.Inv)) ∧
    (bytes.length > 3584 → loadRom bytes s = .romTooLarge ∧ applyEvent s (.loadRom bytes) = some s)

/-- R235 as the model takes it (entry 9): a load is in order once, before the first `TICK`. -/
def Obligations.LoadRomIsInOrderOnce : Prop :=
  (∀ (bytes bytes' : List Byte) (s t : State), loadRom bytes s = .ok t → loadRom bytes' t = .outOfOrder) ∧
  (∀ (bytes : List Byte) (s t : State), s.halted = none → step s = .next t → loadRom bytes t = .outOfOrder)

/-- R236: in a parked state every `TICK` maps the state to itself, and a step changes nothing but the timers. -/
def Obligations.ParkedStaysParked : Prop :=
  ∀ s : State, s.halted = none → Parked s →
    tick s = .next s ∧
    ∃ t, step s = .next t ∧ Parked t ∧ t.pc = s.pc ∧ t.dt.toNat = s.dt.toNat - s.inputs.frames ∧
      t.st.toNat = s.st.toNat - s.inputs.frames ∧ KeepsRegs s t ∧ KeepsIndex s t ∧ KeepsStack s t ∧ KeepsDisplay s t ∧
      KeepsMem s t

/-- R71 (the model's own loader, entry 10): an instruction stored where the next fetch reads is the one that step runs. -/
def Obligations.PlacedWordIsTheNextInstruction : Prop :=
  ∀ (s : State) (nbits w : Nat) (i : Instr), decodeTableWord nbits w = some i →
    ((∀ t, exec i (s.withFetchWord nbits w) = .next t → step (s.withFetchWord nbits w) = .next t.endTick) ∧
     (∀ f, exec i (s.withFetchWord nbits w) = .fault f → step (s.withFetchWord nbits w) = .fault f)) ∧
    (s.Inv → (s.withFetchWord nbits w).Inv)
end

