-- ==== Sys2Proof/Laws/Decode.lean ====
section
/-! SUPPORT. The fields of a laid-out word, and a word out of its fields (30_encoding R72, R73). -/

namespace Sys2Proof

/-- Concatenation as a sum. -/
theorem toNat_append_add {n m : Nat} (a : BitVec n) (b : BitVec m) : (a ++ b).toNat = a.toNat * 2 ^ m + b.toNat := by
  rw [BitVec.toNat_append, ← Nat.shiftLeft_add_eq_or_of_lt b.isLt, Nat.shiftLeft_eq]

/-- The number a layout stands for, format `XKK`, `XSUB`, `FIXED`. -/
theorem toNat_layoutXKK (f x : Nibble) (kk : Byte) :
    (layoutXKK f x kk).toNat = f.toNat * 4096 + x.toNat * 256 + kk.toNat := by
  unfold layoutXKK
  rw [toNat_append_add, toNat_append_add]; omega

/-- The number a layout stands for, formats `XY` and `XYN`. -/
theorem toNat_layoutXYN (f x y n : Nibble) :
    (layoutXYN f x y n).toNat = f.toNat * 4096 + x.toNat * 256 + y.toNat * 16 + n.toNat := by
  unfold layoutXYN
  rw [toNat_append_add, toNat_append_add, toNat_append_add]; omega

/-- The number a layout stands for, format `ADDR`. -/
theorem toNat_layoutAddr (f : Nibble) (a : Addr) : (layoutAddr f a).toNat = f.toNat * 4096 + a.toNat := by
  unfold layoutAddr
  rw [toNat_append_add]; omega

/-! The number of each field. -/

theorem toNat_fieldFamily (op : Word) : (fieldFamily op).toNat = op.toNat / 4096 := by
  have := op.isLt
  simp [fieldFamily, BitVec.extractLsb'_toNat, Nat.shiftRight_eq_div_pow]; omega

theorem toNat_fieldX (op : Word) : (fieldX op).toNat = op.toNat / 256 % 16 := by
  simp [fieldX, BitVec.extractLsb'_toNat, Nat.shiftRight_eq_div_pow]

theorem toNat_fieldY (op : Word) : (fieldY op).toNat = op.toNat / 16 % 16 := by
  simp [fieldY, BitVec.extractLsb'_toNat, Nat.shiftRight_eq_div_pow]

theorem toNat_fieldN (op : Word) : (fieldN op).toNat = op.toNat % 16 := by
  simp [fieldN, BitVec.extractLsb'_toNat]

theorem toNat_fieldKK (op : Word) : (fieldKK op).toNat = op.toNat % 256 := by
  simp [fieldKK, BitVec.extractLsb'_toNat]

theorem toNat_fieldAddr (op : Word) : (fieldAddr op).toNat = op.toNat % 4096 := by
  simp [fieldAddr, BitVec.extractLsb'_toNat]

theorem toNat_wordOf (hi lo : Byte) : (wordOf hi lo).toNat = hi.toNat * 256 + lo.toNat := by
  unfold wordOf
  rw [toNat_append_add]; omega

/-! Fields of a laid-out word. -/

section
variable (f x y n : Nibble) (kk : Byte) (a : Addr)

@[simp] theorem fieldFamily_layoutXKK : fieldFamily (layoutXKK f x kk) = f := by
  apply BitVec.eq_of_toNat_eq; rw [toNat_fieldFamily, toNat_layoutXKK]
  have := x.isLt; have := kk.isLt; omega

@[simp] theorem fieldX_layoutXKK : fieldX (layoutXKK f x kk) = x := by
  apply BitVec.eq_of_toNat_eq; rw [toNat_fieldX, toNat_layoutXKK]
  have := x.isLt; have := kk.isLt; omega

@[simp] theorem fieldKK_layoutXKK : fieldKK (layoutXKK f x kk) = kk := by
  apply BitVec.eq_of_toNat_eq; rw [toNat_fieldKK, toNat_layoutXKK]
  have := x.isLt; have := kk.isLt; omega

@[simp] theorem fieldFamily_layoutXYN : fieldFamily (layoutXYN f x y n) = f := by
  apply BitVec.eq_of_toNat_eq; rw [toNat_fieldFamily, toNat_layoutXYN]
  have := x.isLt; have := y.isLt; have := n.isLt; omega

@[simp] theorem fieldX_layoutXYN : fieldX (layoutXYN f x y n) = x := by
  apply BitVec.eq_of_toNat_eq; rw [toNat_fieldX, toNat_layoutXYN]
  have := x.isLt; have := y.isLt; have := n.isLt; omega

@[simp] theorem fieldY_layoutXYN : fieldY (layoutXYN f x y n) = y := by
  apply BitVec.eq_of_toNat_eq; rw [toNat_fieldY, toNat_layoutXYN]
  have := x.isLt; have := y.isLt; have := n.isLt; omega

@[simp] theorem fieldN_layoutXYN : fieldN (layoutXYN f x y n) = n := by
  apply BitVec.eq_of_toNat_eq; rw [toNat_fieldN, toNat_layoutXYN]
  have := x.isLt; have := y.isLt; have := n.isLt; omega

@[simp] theorem fieldFamily_layoutAddr : fieldFamily (layoutAddr f a) = f := by
  apply BitVec.eq_of_toNat_eq; rw [toNat_fieldFamily, toNat_layoutAddr]
  have := a.isLt; omega

@[simp] theorem fieldAddr_layoutAddr : fieldAddr (layoutAddr f a) = a := by
  apply BitVec.eq_of_toNat_eq; rw [toNat_fieldAddr, toNat_layoutAddr]
  have := a.isLt; omega

end

/-! A word out of its fields. -/

theorem layoutXKK_fields (op : Word) : layoutXKK (fieldFamily op) (fieldX op) (fieldKK op) = op := by
  apply BitVec.eq_of_toNat_eq
  rw [toNat_layoutXKK, toNat_fieldFamily, toNat_fieldX, toNat_fieldKK]; omega

theorem layoutXYN_fields (op : Word) : layoutXYN (fieldFamily op) (fieldX op) (fieldY op) (fieldN op) = op := by
  apply BitVec.eq_of_toNat_eq
  rw [toNat_layoutXYN, toNat_fieldFamily, toNat_fieldX, toNat_fieldY, toNat_fieldN]; omega

theorem layoutAddr_fields (op : Word) : layoutAddr (fieldFamily op) (fieldAddr op) = op := by
  apply BitVec.eq_of_toNat_eq
  rw [toNat_layoutAddr, toNat_fieldFamily, toNat_fieldAddr]; omega

/-! A masked word (30_encoding R76): masking a laid-out word masks its fields. -/

theorem layoutXKK_and (f x f' x' : Nibble) (kk kk' : Byte) :
    layoutXKK f x kk &&& layoutXKK f' x' kk' = layoutXKK (f &&& f') (x &&& x') (kk &&& kk') :=
  BitVec.and_append.trans (congrArg (fun w : BitVec 12 => (f &&& f') ++ w) BitVec.and_append)

theorem layoutXYN_and (f x y n f' x' y' n' : Nibble) :
    layoutXYN f x y n &&& layoutXYN f' x' y' n' = layoutXYN (f &&& f') (x &&& x') (y &&& y') (n &&& n') :=
  BitVec.and_append.trans (congrArg (fun w : BitVec 12 => (f &&& f') ++ w)
    (BitVec.and_append.trans (congrArg (fun w : BitVec 8 => (x &&& x') ++ w) BitVec.and_append)))

theorem and_nibble (n : Nibble) : n &&& 15#4 = n := BitVec.and_allOnes

theorem and_byte (b : Byte) : b &&& 255#8 = b := BitVec.and_allOnes

/-- Mask 0xF000 leaves the family. -/
theorem and_F000 (op : Word) : op &&& 0xF000 = layoutXKK (fieldFamily op) 0 0 := by
  have h := layoutXKK_and (fieldFamily op) (fieldX op) 0xF 0 (fieldKK op) 0
  rw [layoutXKK_fields, show layoutXKK 0xF 0 0 = 0xF000#16 by decide] at h
  simpa [and_nibble] using h

/-- Mask 0xF0FF leaves the family and the low byte. -/
theorem and_F0FF (op : Word) : op &&& 0xF0FF = layoutXKK (fieldFamily op) 0 (fieldKK op) := by
  have h := layoutXKK_and (fieldFamily op) (fieldX op) 0xF 0 (fieldKK op) 0xFF
  rw [layoutXKK_fields, show layoutXKK 0xF 0 0xFF = 0xF0FF#16 by decide] at h
  simpa [and_nibble, and_byte] using h

/-- Mask 0xF00F leaves the family and the low nibble. -/
theorem and_F00F (op : Word) : op &&& 0xF00F = layoutXYN (fieldFamily op) 0 0 (fieldN op) := by
  have h := layoutXYN_and (fieldFamily op) (fieldX op) (fieldY op) (fieldN op) 0xF 0 0 0xF
  rw [layoutXYN_fields, show layoutXYN 0xF 0 0 0xF = 0xF00F#16 by decide] at h
  simpa [and_nibble] using h

/-- The bytes of a word make the word (20_memory R54). -/
@[simp] theorem wordOf_bytes (op : Word) : wordOf (hiByte op) (loByte op) = op := by
  apply BitVec.eq_of_toNat_eq
  have := op.isLt
  rw [toNat_wordOf]
  simp [hiByte, loByte, BitVec.extractLsb'_toNat, Nat.shiftRight_eq_div_pow]; omega

/-! A laid-out word as the rules' encoding lines write it: fields shifted to their places and joined by or. -/

theorem layoutXKK_or (f x f' x' : Nibble) (kk kk' : Byte) :
    layoutXKK f x kk ||| layoutXKK f' x' kk' = layoutXKK (f ||| f') (x ||| x') (kk ||| kk') :=
  BitVec.or_append.trans (congrArg (fun w : BitVec 12 => (f ||| f') ++ w) BitVec.or_append)

theorem layoutXYN_or (f x y n f' x' y' n' : Nibble) :
    layoutXYN f x y n ||| layoutXYN f' x' y' n' = layoutXYN (f ||| f') (x ||| x') (y ||| y') (n ||| n') :=
  BitVec.or_append.trans (congrArg (fun w : BitVec 12 => (f ||| f') ++ w)
    (BitVec.or_append.trans (congrArg (fun w : BitVec 8 => (x ||| x') ++ w) BitVec.or_append)))

theorem layoutAddr_or (f f' : Nibble) (a a' : Addr) :
    layoutAddr f a ||| layoutAddr f' a' = layoutAddr (f ||| f') (a ||| a') := BitVec.or_append

theorem shift_x (x : Nibble) : x.setWidth 16 <<< 8 = layoutXKK 0 x 0 := by
  apply BitVec.eq_of_toNat_eq
  have hx := x.isLt
  rw [toNat_layoutXKK]
  simp [Nat.shiftLeft_eq]; omega

theorem shift_y (y : Nibble) : y.setWidth 16 <<< 4 = layoutXYN 0 0 y 0 := by
  apply BitVec.eq_of_toNat_eq
  have hy := y.isLt
  rw [toNat_layoutXYN]
  simp [Nat.shiftLeft_eq]; omega

theorem widen_kk (kk : Byte) : kk.setWidth 16 = layoutXKK 0 0 kk := by
  apply BitVec.eq_of_toNat_eq
  have hk := kk.isLt
  rw [toNat_layoutXKK]
  simp; omega

theorem widen_n (n : Nibble) : n.setWidth 16 = layoutXYN 0 0 0 n := by
  apply BitVec.eq_of_toNat_eq
  have hn := n.isLt
  rw [toNat_layoutXYN]
  simp; omega

theorem widen_addr (a : Addr) : a.setWidth 16 = layoutAddr 0 a := by
  apply BitVec.eq_of_toNat_eq
  have ha := a.isLt
  rw [toNat_layoutAddr]
  simp; omega

/-- The `XKK` encoding line. -/
theorem layoutXKK_eq (f x : Nibble) (kk : Byte) :
    layoutXKK f x kk = layoutXKK f 0 0 ||| x.setWidth 16 <<< 8 ||| kk.setWidth 16 := by
  rw [shift_x, widen_kk, layoutXKK_or, layoutXKK_or]; simp

/-- The `XSUB` encoding line. -/
theorem layoutXSUB_eq (f x : Nibble) (kk : Byte) : layoutXKK f x kk = layoutXKK f 0 kk ||| x.setWidth 16 <<< 8 := by
  rw [shift_x, layoutXKK_or]; simp

/-- A layout in nibbles with no `y` is one with a byte. -/
theorem layoutXYN_eq_layoutXKK (f x n : Nibble) : layoutXYN f x 0 n = layoutXKK f x (n.setWidth 8) := by
  apply BitVec.eq_of_toNat_eq
  have hn := n.isLt
  rw [toNat_layoutXKK, toNat_layoutXYN]
  simp; omega

/-- The `XY` encoding line. -/
theorem layoutXY_eq (f x y n : Nibble) :
    layoutXYN f x y n = layoutXYN f 0 0 n ||| x.setWidth 16 <<< 8 ||| y.setWidth 16 <<< 4 := by
  rw [shift_x, shift_y, show layoutXKK 0 x 0 = layoutXYN 0 x 0 0 from (layoutXYN_eq_layoutXKK 0 x 0).symm,
    layoutXYN_or, layoutXYN_or]; simp

/-- The `XYN` encoding line. -/
theorem layoutXYN_eq (f x y n : Nibble) :
    layoutXYN f x y n = layoutXYN f 0 0 0 ||| x.setWidth 16 <<< 8 ||| y.setWidth 16 <<< 4 ||| n.setWidth 16 := by
  rw [shift_x, shift_y, widen_n, show layoutXKK 0 x 0 = layoutXYN 0 x 0 0 from (layoutXYN_eq_layoutXKK 0 x 0).symm,
    layoutXYN_or, layoutXYN_or, layoutXYN_or]; simp

/-- The `ADDR` encoding line. -/
theorem layoutAddr_eq (f : Nibble) (a : Addr) : layoutAddr f a = layoutAddr f 0 ||| a.setWidth 16 := by
  rw [widen_addr, layoutAddr_or]; simp

end Sys2Proof
end

