-- ==== Sys2Proof/Laws/Display.lean ====
section
/-! SUPPORT. The display: one cell after one flip, after a clear, after one sprite bit. -/

namespace Sys2Proof.Machine

/-- A flip inverts its own cell and no other. -/
theorem cell_flip (d : Display) (px qx : Fin 64) (py qy : Fin 32) :
    (d.flip px py).cell qx qy = (d.cell qx qy ^^ decide (qx = px ∧ qy = py)) := by
  have hx := qx.isLt
  by_cases hy : qy = py
  · subst hy
    simp only [Display.cell, Display.flip, Fin.getElem_fin, Vector.getElem_set_self, BitVec.getLsbD_xor,
      BitVec.getLsbD_twoPow, and_true]
    congr 1
    by_cases h : qx = px
    · subst h; simp
    · have : ¬ (px : Nat) = qx := fun e => h (Fin.ext e.symm)
      simp [h, this]
  · have hne : (py : Nat) ≠ qy := fun e => hy (Fin.ext e.symm)
    simp [Display.cell, Display.flip, hne, hy]

/-- Every cell of a cleared display is off (43_display R170). -/
@[simp] theorem cell_clear (px : Fin 64) (py : Fin 32) : Display.clear.cell px py = false := by
  simp [Display.cell, Display.clear]

/-- One sprite bit: a 0 bit changes nothing, a 1 bit flips its cell and collides where it was on (43_display R172). -/
theorem drawBit_cases (px : Fin 64) (py : Fin 32) (bit : Bool) (acc : Display × Bool) :
    (bit = false ∧ drawBit px py bit acc = acc) ∨
    (bit = true ∧ drawBit px py bit acc = (acc.1.flip px py, acc.2 || acc.1.cell px py)) := by
  cases bit <;> simp [drawBit]

end Sys2Proof.Machine
end

