-- ==== Sys2Proof/Laws/Memory.lean ====
section
/-! SUPPORT. Memory: a read after a write, the canonical form kept, equal reads of canonical memories. -/

namespace Sys2Proof.Machine

/-! The list of cells. -/

@[simp] theorem findCell_nil (a : Nat) : findCell [] a = none := rfl

/-- After erasing an address it is not listed, and every other address is as before. -/
theorem findCell_eraseCell (m : List Host.Cell) (a b : Nat) : findCell (eraseCell m a) b = if b = a then none else findCell m b := by
  induction m with
  | nil => simp [eraseCell]
  | cons e m ih =>
    obtain ⟨k, c⟩ := e
    by_cases hak : a = k
    · subst hak
      simp only [eraseCell, if_true, ih, findCell]
      split <;> simp_all
    · simp only [eraseCell, hak, if_false, findCell, ih]
      by_cases hbk : b = k <;> simp_all
      exact fun h => hak h.symm

/-- After listing a byte its address reads it, and every other address is as before. -/
theorem findCell_insertCell (m : List Host.Cell) (a b : Nat) (v : Byte) :
    findCell (insertCell m a v) b = if b = a then some v else findCell m b := by
  induction m with
  | nil => by_cases h : b = a <;> simp [insertCell, findCell, h]
  | cons e m ih =>
    obtain ⟨k, c⟩ := e
    simp only [insertCell]
    split
    · by_cases h : b = a <;> simp [findCell, h]
    · split
      · subst k; by_cases h : b = a <;> simp [findCell, h]
      · rename_i h1 h2
        by_cases hbk : b = k
        · subst hbk
          have : ¬ b = a := fun h => h2 h.symm
          simp [findCell, this]
        · simp [findCell, hbk, ih]

end Sys2Proof.Machine

namespace Sys2Proof.Machine.Memory

/-! `FONT` is a parameter: no write changes it, nor what an unlisted address reads as. -/

@[simp] theorem write_font (m : Memory) (a : Nat) (v : Byte) : (m.write a v).font = m.font := rfl

@[simp] theorem write_default (m : Memory) (a b : Nat) (v : Byte) : (m.write a v).default b = m.default b := rfl

@[simp] theorem writeList_font (m : Memory) (a : Nat) (bs : List Byte) : (m.writeList a bs).font = m.font := by
  induction bs generalizing m a with
  | nil => rfl
  | cons b bs ih => exact ih _ _

/-- What an unlisted address reads as (10_state R37). -/
theorem default_eq (m : Memory) (a : Nat) : m.default a = if h : a < 80 then m.font[a]'h else 0 := by
  unfold default
  split
  · simp [*]
  · simp [Nat.not_lt.mp ‹_›]

/-- A read after a write (20_memory R52, R53, R58). -/
theorem read_write (m : Memory) (a b : Nat) (v : Byte) : (m.write a v).read b = if b = a then v else m.read b := by
  unfold read
  rw [write_default]
  unfold write
  split
  · rw [findCell_eraseCell]; by_cases h : b = a <;> simp_all
  · rw [findCell_insertCell]; by_cases h : b = a <;> simp_all

@[simp] theorem read_write_same (m : Memory) (a : Nat) (v : Byte) : (m.write a v).read a = v := by
  simp [read_write]

theorem read_write_ne (m : Memory) {a b : Nat} (v : Byte) (h : b ≠ a) : (m.write a v).read b = m.read b := by
  simp [read_write, h]

/-- A read after writes at rising addresses. -/
theorem read_writeList (bs : List Byte) (m : Memory) (a b : Nat) :
    (m.writeList a bs).read b = if a ≤ b then (bs[b - a]?).getD (m.read b) else m.read b := by
  induction bs generalizing m a with
  | nil => simp [writeList]
  | cons c bs ih =>
    rw [writeList, ih]
    by_cases hlt : a + 1 ≤ b
    · have hle : a ≤ b := by omega
      have hne : b ≠ a := by omega
      obtain ⟨d, hd⟩ : ∃ d, b - a = d + 1 := ⟨b - a - 1, by omega⟩
      have hd' : b - (a + 1) = d := by omega
      simp [hlt, hle, hd, hd', read_write_ne _ _ hne]
    · by_cases heq : b = a
      · subst heq; simp
      · have hle : ¬ a ≤ b := by omega
        simp [hlt, hle, read_write_ne _ _ heq]

/-- Outside the bytes written, memory reads as before. -/
theorem read_writeList_outside (bs : List Byte) (m : Memory) (a b : Nat) (h : b < a ∨ a + bs.length ≤ b) :
    (m.writeList a bs).read b = m.read b := by
  rw [read_writeList]
  split
  · have : bs.length ≤ b - a := by omega
    simp [List.getElem?_eq_none this]
  · rfl

/-- The bytes written are the bytes read. -/
theorem read_writeList_inside (bs : List Byte) (m : Memory) (a k : Nat) (h : k < bs.length) :
    (m.writeList a bs).read (a + k) = bs[k] := by
  rw [read_writeList]
  simp [h]

@[simp] theorem length_readList (m : Memory) (a n : Nat) : (m.readList a n).length = n := by
  induction n generalizing a with
  | zero => rfl
  | succ n ih => simp [readList, ih]

theorem getElem?_readList (m : Memory) (a n k : Nat) :
    (m.readList a n)[k]? = if k < n then some (m.read (a + k)) else none := by
  induction n generalizing a k with
  | zero => simp [readList]
  | succ n ih =>
    cases k with
    | zero => simp [readList]
    | succ k =>
      have : a + 1 + k = a + (k + 1) := by omega
      simp [readList, ih, this]

@[simp] theorem getElem_readList (m : Memory) (a n k : Nat) (h : k < (m.readList a n).length) :
    (m.readList a n)[k] = m.read (a + k) := by
  have h' : k < n := by simpa using h
  have := getElem?_readList m a n k
  rw [if_pos h', List.getElem?_eq_some_iff] at this
  exact this.2

/-! The canonical form. -/

theorem wfFrom_cons (m : Memory) (lo k : Nat) (b : Byte) (l : List Host.Cell) :
    m.wfFrom lo ((k, b) :: l) = true ↔ lo ≤ k ∧ k < Config.memSize ∧ b ≠ m.default k ∧ m.wfFrom (k + 1) l = true := by
  simp [wfFrom, and_assoc]

/-- The form of a list of cells depends on the memory by what unlisted addresses read as only. -/
theorem wfFrom_congr {m m' : Memory} (h : ∀ a, m.default a = m'.default a) (lo : Nat) (l : List Host.Cell) :
    m.wfFrom lo l = m'.wfFrom lo l := by
  induction l generalizing lo with
  | nil => rfl
  | cons e l ih => obtain ⟨k, b⟩ := e; simp [wfFrom, h, ih]

theorem wfFrom_mono {m : Memory} {lo lo' : Nat} (h : lo' ≤ lo) {l : List Host.Cell} (hl : m.wfFrom lo l = true) :
    m.wfFrom lo' l = true := by
  cases l with
  | nil => rfl
  | cons e l =>
    obtain ⟨k, b⟩ := e
    rw [wfFrom_cons] at *
    exact ⟨by omega, hl.2⟩

/-- No address below the bound is listed. -/
theorem findCell_of_wfFrom {m : Memory} {lo a : Nat} {l : List Host.Cell} (hl : m.wfFrom lo l = true) (h : a < lo) :
    findCell l a = none := by
  induction l generalizing lo with
  | nil => rfl
  | cons e l ih =>
    obtain ⟨k, b⟩ := e
    rw [wfFrom_cons] at hl
    have : a ≠ k := by omega
    simp only [findCell, this, if_false]
    exact ih hl.2.2.2 (by omega)

theorem wfFrom_eraseCell {m : Memory} {lo a : Nat} {l : List Host.Cell} (hl : m.wfFrom lo l = true) :
    m.wfFrom lo (eraseCell l a) = true := by
  induction l generalizing lo with
  | nil => rfl
  | cons e l ih =>
    obtain ⟨k, b⟩ := e
    rw [wfFrom_cons] at hl
    simp only [eraseCell]
    split
    · exact ih (wfFrom_mono (by omega) hl.2.2.2)
    · rw [wfFrom_cons]; exact ⟨hl.1, hl.2.1, hl.2.2.1, ih hl.2.2.2⟩

theorem wfFrom_insertCell {m : Memory} {lo a : Nat} {v : Byte} {l : List Host.Cell} (hl : m.wfFrom lo l = true)
    (hlo : lo ≤ a) (ha : a < Config.memSize) (hv : v ≠ m.default a) : m.wfFrom lo (insertCell l a v) = true := by
  induction l generalizing lo with
  | nil => simp [insertCell, wfFrom, hlo, ha, hv]
  | cons e l ih =>
    obtain ⟨k, b⟩ := e
    rw [wfFrom_cons] at hl
    simp only [insertCell]
    split
    · rw [wfFrom_cons, wfFrom_cons]; exact ⟨hlo, ha, hv, by omega, hl.2⟩
    · split
      · subst k; rw [wfFrom_cons]; exact ⟨hlo, ha, hv, hl.2.2.2⟩
      · rw [wfFrom_cons]; exact ⟨hl.1, hl.2.1, hl.2.2.1, ih hl.2.2.2 (by omega)⟩

/-- Every write to an address that exists keeps the canonical form. -/
theorem wf_write {m : Memory} {a : Nat} {v : Byte} (hm : m.wf = true) (ha : a < Config.memSize) :
    (m.write a v).wf = true := by
  unfold wf at *
  rw [wfFrom_congr (write_default m a · v)]
  unfold write
  dsimp only
  split
  · exact wfFrom_eraseCell hm
  · exact wfFrom_insertCell hm (Nat.zero_le _) ha ‹_›

theorem wf_writeList {bs : List Byte} {m : Memory} {a : Nat} (hm : m.wf = true) (ha : a + bs.length ≤ Config.memSize) :
    (m.writeList a bs).wf = true := by
  induction bs generalizing m a with
  | nil => exact hm
  | cons b bs ih =>
    simp only [List.length_cons] at ha
    exact ih (wf_write hm (by omega)) (by omega)

end Sys2Proof.Machine.Memory

namespace Sys2Proof.Machine

/-- The reset memory has the canonical form, whatever the `FONT`. -/
theorem resetWith_mem_wf (font : Vector Byte Config.fontSize) : (State.resetWith font).mem.wf = true := rfl

/-- The reset memory reads as `FONT`, then zeros (10_state R37). -/
theorem resetWith_mem_read (font : Vector Byte Config.fontSize) (a : Nat) :
    (State.resetWith font).mem.read a = if h : a < 80 then font[a]'h else 0 :=
  Memory.default_eq _ a

@[simp] theorem reset_mem_font : State.reset.mem.font = Config.defaultFont := rfl

end Sys2Proof.Machine
end

