-- ==== Sys2Proof/Laws/State.lean ====
section
/-! SUPPORT. One lemma per field per update of State: an update changes its own field and no other. -/

namespace Sys2Proof.Machine

variable (s : State)

@[simp] theorem State.setRegs_v (a : Vector Byte 16) : (s.setRegs a).v = a := rfl
@[simp] theorem State.setRegs_idx (a : Vector Byte 16) : (s.setRegs a).idx = s.idx := rfl
@[simp] theorem State.setRegs_pc (a : Vector Byte 16) : (s.setRegs a).pc = s.pc := rfl
@[simp] theorem State.setRegs_sp (a : Vector Byte 16) : (s.setRegs a).sp = s.sp := rfl
@[simp] theorem State.setRegs_stack (a : Vector Byte 16) : (s.setRegs a).stack = s.stack := rfl
@[simp] theorem State.setRegs_dt (a : Vector Byte 16) : (s.setRegs a).dt = s.dt := rfl
@[simp] theorem State.setRegs_st (a : Vector Byte 16) : (s.setRegs a).st = s.st := rfl
@[simp] theorem State.setRegs_display (a : Vector Byte 16) : (s.setRegs a).display = s.display := rfl
@[simp] theorem State.setRegs_mem (a : Vector Byte 16) : (s.setRegs a).mem = s.mem := rfl
@[simp] theorem State.setRegs_halted (a : Vector Byte 16) : (s.setRegs a).halted = s.halted := rfl
@[simp] theorem State.setRegs_tickNo (a : Vector Byte 16) : (s.setRegs a).tickNo = s.tickNo := rfl
@[simp] theorem State.setRegs_script (a : Vector Byte 16) : (s.setRegs a).script = s.script := rfl
@[simp] theorem State.setRegs_boot (a : Vector Byte 16) : (s.setRegs a).boot = s.boot := rfl

@[simp] theorem State.setIdx_v (a : Word) : (s.setIdx a).v = s.v := rfl
@[simp] theorem State.setIdx_idx (a : Word) : (s.setIdx a).idx = a := rfl
@[simp] theorem State.setIdx_pc (a : Word) : (s.setIdx a).pc = s.pc := rfl
@[simp] theorem State.setIdx_sp (a : Word) : (s.setIdx a).sp = s.sp := rfl
@[simp] theorem State.setIdx_stack (a : Word) : (s.setIdx a).stack = s.stack := rfl
@[simp] theorem State.setIdx_dt (a : Word) : (s.setIdx a).dt = s.dt := rfl
@[simp] theorem State.setIdx_st (a : Word) : (s.setIdx a).st = s.st := rfl
@[simp] theorem State.setIdx_display (a : Word) : (s.setIdx a).display = s.display := rfl
@[simp] theorem State.setIdx_mem (a : Word) : (s.setIdx a).mem = s.mem := rfl
@[simp] theorem State.setIdx_halted (a : Word) : (s.setIdx a).halted = s.halted := rfl
@[simp] theorem State.setIdx_tickNo (a : Word) : (s.setIdx a).tickNo = s.tickNo := rfl
@[simp] theorem State.setIdx_script (a : Word) : (s.setIdx a).script = s.script := rfl
@[simp] theorem State.setIdx_boot (a : Word) : (s.setIdx a).boot = s.boot := rfl

@[simp] theorem State.setPc_v (a : Word) : (s.setPc a).v = s.v := rfl
@[simp] theorem State.setPc_idx (a : Word) : (s.setPc a).idx = s.idx := rfl
@[simp] theorem State.setPc_pc (a : Word) : (s.setPc a).pc = a := rfl
@[simp] theorem State.setPc_sp (a : Word) : (s.setPc a).sp = s.sp := rfl
@[simp] theorem State.setPc_stack (a : Word) : (s.setPc a).stack = s.stack := rfl
@[simp] theorem State.setPc_dt (a : Word) : (s.setPc a).dt = s.dt := rfl
@[simp] theorem State.setPc_st (a : Word) : (s.setPc a).st = s.st := rfl
@[simp] theorem State.setPc_display (a : Word) : (s.setPc a).display = s.display := rfl
@[simp] theorem State.setPc_mem (a : Word) : (s.setPc a).mem = s.mem := rfl
@[simp] theorem State.setPc_halted (a : Word) : (s.setPc a).halted = s.halted := rfl
@[simp] theorem State.setPc_tickNo (a : Word) : (s.setPc a).tickNo = s.tickNo := rfl
@[simp] theorem State.setPc_script (a : Word) : (s.setPc a).script = s.script := rfl
@[simp] theorem State.setPc_boot (a : Word) : (s.setPc a).boot = s.boot := rfl

@[simp] theorem State.setSp_v (a : Byte) : (s.setSp a).v = s.v := rfl
@[simp] theorem State.setSp_idx (a : Byte) : (s.setSp a).idx = s.idx := rfl
@[simp] theorem State.setSp_pc (a : Byte) : (s.setSp a).pc = s.pc := rfl
@[simp] theorem State.setSp_sp (a : Byte) : (s.setSp a).sp = a := rfl
@[simp] theorem State.setSp_stack (a : Byte) : (s.setSp a).stack = s.stack := rfl
@[simp] theorem State.setSp_dt (a : Byte) : (s.setSp a).dt = s.dt := rfl
@[simp] theorem State.setSp_st (a : Byte) : (s.setSp a).st = s.st := rfl
@[simp] theorem State.setSp_display (a : Byte) : (s.setSp a).display = s.display := rfl
@[simp] theorem State.setSp_mem (a : Byte) : (s.setSp a).mem = s.mem := rfl
@[simp] theorem State.setSp_halted (a : Byte) : (s.setSp a).halted = s.halted := rfl
@[simp] theorem State.setSp_tickNo (a : Byte) : (s.setSp a).tickNo = s.tickNo := rfl
@[simp] theorem State.setSp_script (a : Byte) : (s.setSp a).script = s.script := rfl
@[simp] theorem State.setSp_boot (a : Byte) : (s.setSp a).boot = s.boot := rfl

@[simp] theorem State.setStack_v (a : Vector Word 16) : (s.setStack a).v = s.v := rfl
@[simp] theorem State.setStack_idx (a : Vector Word 16) : (s.setStack a).idx = s.idx := rfl
@[simp] theorem State.setStack_pc (a : Vector Word 16) : (s.setStack a).pc = s.pc := rfl
@[simp] theorem State.setStack_sp (a : Vector Word 16) : (s.setStack a).sp = s.sp := rfl
@[simp] theorem State.setStack_stack (a : Vector Word 16) : (s.setStack a).stack = a := rfl
@[simp] theorem State.setStack_dt (a : Vector Word 16) : (s.setStack a).dt = s.dt := rfl
@[simp] theorem State.setStack_st (a : Vector Word 16) : (s.setStack a).st = s.st := rfl
@[simp] theorem State.setStack_display (a : Vector Word 16) : (s.setStack a).display = s.display := rfl
@[simp] theorem State.setStack_mem (a : Vector Word 16) : (s.setStack a).mem = s.mem := rfl
@[simp] theorem State.setStack_halted (a : Vector Word 16) : (s.setStack a).halted = s.halted := rfl
@[simp] theorem State.setStack_tickNo (a : Vector Word 16) : (s.setStack a).tickNo = s.tickNo := rfl
@[simp] theorem State.setStack_script (a : Vector Word 16) : (s.setStack a).script = s.script := rfl
@[simp] theorem State.setStack_boot (a : Vector Word 16) : (s.setStack a).boot = s.boot := rfl

@[simp] theorem State.setDt_v (a : Byte) : (s.setDt a).v = s.v := rfl
@[simp] theorem State.setDt_idx (a : Byte) : (s.setDt a).idx = s.idx := rfl
@[simp] theorem State.setDt_pc (a : Byte) : (s.setDt a).pc = s.pc := rfl
@[simp] theorem State.setDt_sp (a : Byte) : (s.setDt a).sp = s.sp := rfl
@[simp] theorem State.setDt_stack (a : Byte) : (s.setDt a).stack = s.stack := rfl
@[simp] theorem State.setDt_dt (a : Byte) : (s.setDt a).dt = a := rfl
@[simp] theorem State.setDt_st (a : Byte) : (s.setDt a).st = s.st := rfl
@[simp] theorem State.setDt_display (a : Byte) : (s.setDt a).display = s.display := rfl
@[simp] theorem State.setDt_mem (a : Byte) : (s.setDt a).mem = s.mem := rfl
@[simp] theorem State.setDt_halted (a : Byte) : (s.setDt a).halted = s.halted := rfl
@[simp] theorem State.setDt_tickNo (a : Byte) : (s.setDt a).tickNo = s.tickNo := rfl
@[simp] theorem State.setDt_script (a : Byte) : (s.setDt a).script = s.script := rfl
@[simp] theorem State.setDt_boot (a : Byte) : (s.setDt a).boot = s.boot := rfl

@[simp] theorem State.setSt_v (a : Byte) : (s.setSt a).v = s.v := rfl
@[simp] theorem State.setSt_idx (a : Byte) : (s.setSt a).idx = s.idx := rfl
@[simp] theorem State.setSt_pc (a : Byte) : (s.setSt a).pc = s.pc := rfl
@[simp] theorem State.setSt_sp (a : Byte) : (s.setSt a).sp = s.sp := rfl
@[simp] theorem State.setSt_stack (a : Byte) : (s.setSt a).stack = s.stack := rfl
@[simp] theorem State.setSt_dt (a : Byte) : (s.setSt a).dt = s.dt := rfl
@[simp] theorem State.setSt_st (a : Byte) : (s.setSt a).st = a := rfl
@[simp] theorem State.setSt_display (a : Byte) : (s.setSt a).display = s.display := rfl
@[simp] theorem State.setSt_mem (a : Byte) : (s.setSt a).mem = s.mem := rfl
@[simp] theorem State.setSt_halted (a : Byte) : (s.setSt a).halted = s.halted := rfl
@[simp] theorem State.setSt_tickNo (a : Byte) : (s.setSt a).tickNo = s.tickNo := rfl
@[simp] theorem State.setSt_script (a : Byte) : (s.setSt a).script = s.script := rfl
@[simp] theorem State.setSt_boot (a : Byte) : (s.setSt a).boot = s.boot := rfl

@[simp] theorem State.setDisplay_v (a : Display) : (s.setDisplay a).v = s.v := rfl
@[simp] theorem State.setDisplay_idx (a : Display) : (s.setDisplay a).idx = s.idx := rfl
@[simp] theorem State.setDisplay_pc (a : Display) : (s.setDisplay a).pc = s.pc := rfl
@[simp] theorem State.setDisplay_sp (a : Display) : (s.setDisplay a).sp = s.sp := rfl
@[simp] theorem State.setDisplay_stack (a : Display) : (s.setDisplay a).stack = s.stack := rfl
@[simp] theorem State.setDisplay_dt (a : Display) : (s.setDisplay a).dt = s.dt := rfl
@[simp] theorem State.setDisplay_st (a : Display) : (s.setDisplay a).st = s.st := rfl
@[simp] theorem State.setDisplay_display (a : Display) : (s.setDisplay a).display = a := rfl
@[simp] theorem State.setDisplay_mem (a : Display) : (s.setDisplay a).mem = s.mem := rfl
@[simp] theorem State.setDisplay_halted (a : Display) : (s.setDisplay a).halted = s.halted := rfl
@[simp] theorem State.setDisplay_tickNo (a : Display) : (s.setDisplay a).tickNo = s.tickNo := rfl
@[simp] theorem State.setDisplay_script (a : Display) : (s.setDisplay a).script = s.script := rfl
@[simp] theorem State.setDisplay_boot (a : Display) : (s.setDisplay a).boot = s.boot := rfl

@[simp] theorem State.setMem_v (a : Memory) : (s.setMem a).v = s.v := rfl
@[simp] theorem State.setMem_idx (a : Memory) : (s.setMem a).idx = s.idx := rfl
@[simp] theorem State.setMem_pc (a : Memory) : (s.setMem a).pc = s.pc := rfl
@[simp] theorem State.setMem_sp (a : Memory) : (s.setMem a).sp = s.sp := rfl
@[simp] theorem State.setMem_stack (a : Memory) : (s.setMem a).stack = s.stack := rfl
@[simp] theorem State.setMem_dt (a : Memory) : (s.setMem a).dt = s.dt := rfl
@[simp] theorem State.setMem_st (a : Memory) : (s.setMem a).st = s.st := rfl
@[simp] theorem State.setMem_display (a : Memory) : (s.setMem a).display = s.display := rfl
@[simp] theorem State.setMem_mem (a : Memory) : (s.setMem a).mem = a := rfl
@[simp] theorem State.setMem_halted (a : Memory) : (s.setMem a).halted = s.halted := rfl
@[simp] theorem State.setMem_tickNo (a : Memory) : (s.setMem a).tickNo = s.tickNo := rfl
@[simp] theorem State.setMem_script (a : Memory) : (s.setMem a).script = s.script := rfl
@[simp] theorem State.setMem_boot (a : Memory) : (s.setMem a).boot = s.boot := rfl

@[simp] theorem State.halt_v (f : Fault) : (s.halt f).v = s.v := rfl
@[simp] theorem State.halt_idx (f : Fault) : (s.halt f).idx = s.idx := rfl
@[simp] theorem State.halt_pc (f : Fault) : (s.halt f).pc = s.pc := rfl
@[simp] theorem State.halt_sp (f : Fault) : (s.halt f).sp = s.sp := rfl
@[simp] theorem State.halt_stack (f : Fault) : (s.halt f).stack = s.stack := rfl
@[simp] theorem State.halt_dt (f : Fault) : (s.halt f).dt = s.dt := rfl
@[simp] theorem State.halt_st (f : Fault) : (s.halt f).st = s.st := rfl
@[simp] theorem State.halt_display (f : Fault) : (s.halt f).display = s.display := rfl
@[simp] theorem State.halt_mem (f : Fault) : (s.halt f).mem = s.mem := rfl
@[simp] theorem State.halt_halted (f : Fault) : (s.halt f).halted = some f := rfl
@[simp] theorem State.halt_tickNo (f : Fault) : (s.halt f).tickNo = s.tickNo := rfl
@[simp] theorem State.halt_script (f : Fault) : (s.halt f).script = s.script := rfl
@[simp] theorem State.halt_boot (f : Fault) : (s.halt f).boot = s.boot := rfl

@[simp] theorem State.moveOn_v : s.moveOn.v = s.v := rfl
@[simp] theorem State.moveOn_idx : s.moveOn.idx = s.idx := rfl
@[simp] theorem State.moveOn_pc : s.moveOn.pc = s.pc := rfl
@[simp] theorem State.moveOn_sp : s.moveOn.sp = s.sp := rfl
@[simp] theorem State.moveOn_stack : s.moveOn.stack = s.stack := rfl
@[simp] theorem State.moveOn_dt : s.moveOn.dt = s.dt := rfl
@[simp] theorem State.moveOn_st : s.moveOn.st = s.st := rfl
@[simp] theorem State.moveOn_display : s.moveOn.display = s.display := rfl
@[simp] theorem State.moveOn_mem : s.moveOn.mem = s.mem := rfl
@[simp] theorem State.moveOn_halted : s.moveOn.halted = s.halted := rfl
@[simp] theorem State.moveOn_tickNo : s.moveOn.tickNo = s.tickNo + 1 := rfl
@[simp] theorem State.moveOn_script : s.moveOn.script = s.script.tail := rfl
@[simp] theorem State.moveOn_boot : s.moveOn.boot = .started := rfl

/-- Two states are equal when every field is. -/
theorem State.ext_fields {s t : State} (hv : s.v = t.v) (hi : s.idx = t.idx) (hp : s.pc = t.pc) (hsp : s.sp = t.sp)
    (hk : s.stack = t.stack) (hd : s.dt = t.dt) (hs : s.st = t.st) (hdi : s.display = t.display) (hm : s.mem = t.mem)
    (hh : s.halted = t.halted) (hn : s.tickNo = t.tickNo) (hsc : s.script = t.script) (hb : s.boot = t.boot) : s = t := by
  cases s; cases t; simp_all

end Sys2Proof.Machine
end

