-- ==== Sys2Proof/Laws/Registers.lean ====
section
/-! SUPPORT. General registers and the shared updates: what each of them leaves. -/

namespace Sys2Proof.Machine

variable (s : State)

/-- A register reads what was last written to it. -/
@[simp] theorem getV_setV_same (x : Nibble) (b : Byte) : (s.setV x b).getV x = b := by
  simp [State.getV, State.setV]

/-- Writing one register leaves the others. -/
theorem getV_setV_ne {x r : Nibble} (b : Byte) (h : r ≠ x) : (s.setV x b).getV r = s.getV r := by
  have hne : x.toNat ≠ r.toNat := fun e => h (BitVec.eq_of_toNat_eq e.symm)
  simp only [State.getV, State.setV, State.setRegs_v]
  exact Vector.getElem_set_ne _ _ hne

/-- Both cases of a register read after a register write. -/
theorem getV_setV (x r : Nibble) (b : Byte) : (s.setV x b).getV r = if r = x then b else s.getV r := by
  split
  · subst r; simp
  · exact getV_setV_ne s b ‹_›

@[simp] theorem getV_setIdx (a : Word) (r : Nibble) : (s.setIdx a).getV r = s.getV r := rfl
@[simp] theorem getV_setPc (a : Word) (r : Nibble) : (s.setPc a).getV r = s.getV r := rfl
@[simp] theorem getV_setSp (a : Byte) (r : Nibble) : (s.setSp a).getV r = s.getV r := rfl
@[simp] theorem getV_setStack (a : Vector Word 16) (r : Nibble) : (s.setStack a).getV r = s.getV r := rfl
@[simp] theorem getV_setDt (a : Byte) (r : Nibble) : (s.setDt a).getV r = s.getV r := rfl
@[simp] theorem getV_setSt (a : Byte) (r : Nibble) : (s.setSt a).getV r = s.getV r := rfl
@[simp] theorem getV_setDisplay (a : Display) (r : Nibble) : (s.setDisplay a).getV r = s.getV r := rfl
@[simp] theorem getV_setMem (a : Memory) (r : Nibble) : (s.setMem a).getV r = s.getV r := rfl
@[simp] theorem getV_halt (f : Fault) (r : Nibble) : (s.halt f).getV r = s.getV r := rfl
@[simp] theorem getV_moveOn (r : Nibble) : s.moveOn.getV r = s.getV r := rfl

@[simp] theorem setV_idx (x : Nibble) (b : Byte) : (s.setV x b).idx = s.idx := rfl
@[simp] theorem setV_pc (x : Nibble) (b : Byte) : (s.setV x b).pc = s.pc := rfl
@[simp] theorem setV_sp (x : Nibble) (b : Byte) : (s.setV x b).sp = s.sp := rfl
@[simp] theorem setV_stack (x : Nibble) (b : Byte) : (s.setV x b).stack = s.stack := rfl
@[simp] theorem setV_dt (x : Nibble) (b : Byte) : (s.setV x b).dt = s.dt := rfl
@[simp] theorem setV_st (x : Nibble) (b : Byte) : (s.setV x b).st = s.st := rfl
@[simp] theorem setV_display (x : Nibble) (b : Byte) : (s.setV x b).display = s.display := rfl
@[simp] theorem setV_mem (x : Nibble) (b : Byte) : (s.setV x b).mem = s.mem := rfl
@[simp] theorem setV_halted (x : Nibble) (b : Byte) : (s.setV x b).halted = s.halted := rfl
@[simp] theorem setV_tickNo (x : Nibble) (b : Byte) : (s.setV x b).tickNo = s.tickNo := rfl
@[simp] theorem setV_script (x : Nibble) (b : Byte) : (s.setV x b).script = s.script := rfl
@[simp] theorem setV_boot (x : Nibble) (b : Byte) : (s.setV x b).boot = s.boot := rfl

@[simp] theorem advance_v : s.advance.v = s.v := rfl
@[simp] theorem advance_idx : s.advance.idx = s.idx := rfl
@[simp] theorem advance_pc : s.advance.pc = s.pc + 2 := rfl
@[simp] theorem advance_sp : s.advance.sp = s.sp := rfl
@[simp] theorem advance_stack : s.advance.stack = s.stack := rfl
@[simp] theorem advance_dt : s.advance.dt = s.dt := rfl
@[simp] theorem advance_st : s.advance.st = s.st := rfl
@[simp] theorem advance_display : s.advance.display = s.display := rfl
@[simp] theorem advance_mem : s.advance.mem = s.mem := rfl
@[simp] theorem advance_halted : s.advance.halted = s.halted := rfl
@[simp] theorem advance_tickNo : s.advance.tickNo = s.tickNo := rfl
@[simp] theorem advance_script : s.advance.script = s.script := rfl
@[simp] theorem advance_boot : s.advance.boot = s.boot := rfl
@[simp] theorem getV_advance (r : Nibble) : s.advance.getV r = s.getV r := rfl

@[simp] theorem skipIf_v (c : Bool) : (s.skipIf c).v = s.v := rfl
@[simp] theorem skipIf_idx (c : Bool) : (s.skipIf c).idx = s.idx := rfl
@[simp] theorem skipIf_pc (c : Bool) : (s.skipIf c).pc = if c then s.pc + 4 else s.pc + 2 := rfl
@[simp] theorem skipIf_sp (c : Bool) : (s.skipIf c).sp = s.sp := rfl
@[simp] theorem skipIf_stack (c : Bool) : (s.skipIf c).stack = s.stack := rfl
@[simp] theorem skipIf_dt (c : Bool) : (s.skipIf c).dt = s.dt := rfl
@[simp] theorem skipIf_st (c : Bool) : (s.skipIf c).st = s.st := rfl
@[simp] theorem skipIf_display (c : Bool) : (s.skipIf c).display = s.display := rfl
@[simp] theorem skipIf_mem (c : Bool) : (s.skipIf c).mem = s.mem := rfl
@[simp] theorem skipIf_halted (c : Bool) : (s.skipIf c).halted = s.halted := rfl
@[simp] theorem skipIf_tickNo (c : Bool) : (s.skipIf c).tickNo = s.tickNo := rfl
@[simp] theorem skipIf_script (c : Bool) : (s.skipIf c).script = s.script := rfl
@[simp] theorem skipIf_boot (c : Bool) : (s.skipIf c).boot = s.boot := rfl
@[simp] theorem getV_skipIf (c : Bool) (r : Nibble) : (s.skipIf c).getV r = s.getV r := rfl

@[simp] theorem jump_v (a : Addr) : (s.jump a).v = s.v := rfl
@[simp] theorem jump_idx (a : Addr) : (s.jump a).idx = s.idx := rfl
@[simp] theorem jump_pc (a : Addr) : (s.jump a).pc = a.setWidth 16 := rfl
@[simp] theorem jump_sp (a : Addr) : (s.jump a).sp = s.sp := rfl
@[simp] theorem jump_stack (a : Addr) : (s.jump a).stack = s.stack := rfl
@[simp] theorem jump_dt (a : Addr) : (s.jump a).dt = s.dt := rfl
@[simp] theorem jump_st (a : Addr) : (s.jump a).st = s.st := rfl
@[simp] theorem jump_display (a : Addr) : (s.jump a).display = s.display := rfl
@[simp] theorem jump_mem (a : Addr) : (s.jump a).mem = s.mem := rfl
@[simp] theorem jump_halted (a : Addr) : (s.jump a).halted = s.halted := rfl
@[simp] theorem jump_tickNo (a : Addr) : (s.jump a).tickNo = s.tickNo := rfl
@[simp] theorem jump_script (a : Addr) : (s.jump a).script = s.script := rfl
@[simp] theorem jump_boot (a : Addr) : (s.jump a).boot = s.boot := rfl
@[simp] theorem getV_jump (a : Addr) (r : Nibble) : (s.jump a).getV r = s.getV r := rfl

@[simp] theorem push_v (w : Word) : (s.push w).v = s.v := rfl
@[simp] theorem push_idx (w : Word) : (s.push w).idx = s.idx := rfl
@[simp] theorem push_pc (w : Word) : (s.push w).pc = s.pc := rfl
@[simp] theorem push_sp (w : Word) : (s.push w).sp = s.sp + 1 := rfl
@[simp] theorem push_stack (w : Word) : (s.push w).stack = s.stack.setIfInBounds s.sp.toNat w := rfl
@[simp] theorem push_dt (w : Word) : (s.push w).dt = s.dt := rfl
@[simp] theorem push_st (w : Word) : (s.push w).st = s.st := rfl
@[simp] theorem push_display (w : Word) : (s.push w).display = s.display := rfl
@[simp] theorem push_mem (w : Word) : (s.push w).mem = s.mem := rfl
@[simp] theorem push_halted (w : Word) : (s.push w).halted = s.halted := rfl
@[simp] theorem push_tickNo (w : Word) : (s.push w).tickNo = s.tickNo := rfl
@[simp] theorem push_script (w : Word) : (s.push w).script = s.script := rfl
@[simp] theorem push_boot (w : Word) : (s.push w).boot = s.boot := rfl
@[simp] theorem getV_push (w : Word) (r : Nibble) : (s.push w).getV r = s.getV r := rfl

@[simp] theorem result_idx (x : Nibble) (b : Byte) : (s.result x b).idx = s.idx := rfl
@[simp] theorem resultFlag_idx (x : Nibble) (b : Byte) (c : Bool) : (s.resultFlag x b c).idx = s.idx := rfl
@[simp] theorem result_pc (x : Nibble) (b : Byte) : (s.result x b).pc = s.pc + 2 := rfl
@[simp] theorem resultFlag_pc (x : Nibble) (b : Byte) (c : Bool) : (s.resultFlag x b c).pc = s.pc + 2 := rfl
@[simp] theorem result_sp (x : Nibble) (b : Byte) : (s.result x b).sp = s.sp := rfl
@[simp] theorem resultFlag_sp (x : Nibble) (b : Byte) (c : Bool) : (s.resultFlag x b c).sp = s.sp := rfl
@[simp] theorem result_stack (x : Nibble) (b : Byte) : (s.result x b).stack = s.stack := rfl
@[simp] theorem resultFlag_stack (x : Nibble) (b : Byte) (c : Bool) : (s.resultFlag x b c).stack = s.stack := rfl
@[simp] theorem result_dt (x : Nibble) (b : Byte) : (s.result x b).dt = s.dt := rfl
@[simp] theorem resultFlag_dt (x : Nibble) (b : Byte) (c : Bool) : (s.resultFlag x b c).dt = s.dt := rfl
@[simp] theorem result_st (x : Nibble) (b : Byte) : (s.result x b).st = s.st := rfl
@[simp] theorem resultFlag_st (x : Nibble) (b : Byte) (c : Bool) : (s.resultFlag x b c).st = s.st := rfl
@[simp] theorem result_display (x : Nibble) (b : Byte) : (s.result x b).display = s.display := rfl
@[simp] theorem resultFlag_display (x : Nibble) (b : Byte) (c : Bool) : (s.resultFlag x b c).display = s.display := rfl
@[simp] theorem result_mem (x : Nibble) (b : Byte) : (s.result x b).mem = s.mem := rfl
@[simp] theorem resultFlag_mem (x : Nibble) (b : Byte) (c : Bool) : (s.resultFlag x b c).mem = s.mem := rfl
@[simp] theorem result_halted (x : Nibble) (b : Byte) : (s.result x b).halted = s.halted := rfl
@[simp] theorem resultFlag_halted (x : Nibble) (b : Byte) (c : Bool) : (s.resultFlag x b c).halted = s.halted := rfl
@[simp] theorem result_tickNo (x : Nibble) (b : Byte) : (s.result x b).tickNo = s.tickNo := rfl
@[simp] theorem resultFlag_tickNo (x : Nibble) (b : Byte) (c : Bool) : (s.resultFlag x b c).tickNo = s.tickNo := rfl
@[simp] theorem result_script (x : Nibble) (b : Byte) : (s.result x b).script = s.script := rfl
@[simp] theorem resultFlag_script (x : Nibble) (b : Byte) (c : Bool) : (s.resultFlag x b c).script = s.script := rfl
@[simp] theorem result_boot (x : Nibble) (b : Byte) : (s.result x b).boot = s.boot := rfl
@[simp] theorem resultFlag_boot (x : Nibble) (b : Byte) (c : Bool) : (s.resultFlag x b c).boot = s.boot := rfl

/-- What a result without a flag leaves in the registers. -/
theorem getV_result (x r : Nibble) (b : Byte) : (s.result x b).getV r = if r = x then b else s.getV r := by
  simp [State.result, getV_setV]

/-- What a result with a flag leaves in the registers: the flag wins (41_load_arith_logic R133). -/
theorem getV_resultFlag (x r : Nibble) (b : Byte) (c : Bool) :
    (s.resultFlag x b c).getV r = if r = 0xF then flagByte c else if r = x then b else s.getV r := by
  simp only [State.resultFlag, getV_advance, getV_setV]

/-- The stack after a push (40_control_flow R103). -/
theorem stackEntry_push (w : Word) (k : Nat) :
    (s.push w).stackEntry k = if k = s.sp.toNat ∧ k < 16 then some w else s.stackEntry k := by
  simp only [State.stackEntry, push_stack, Vector.getElem?_setIfInBounds]
  split <;> split <;> simp_all

/-- An entry of the stack exists exactly below 16 (10_state R28). -/
theorem stackEntry_isSome (k : Nat) : (s.stackEntry k).isSome = decide (k < 16) := by
  by_cases h : k < 16 <;> simp [State.stackEntry, h]

end Sys2Proof.Machine
end

