-- ==== Sys2Proof/Laws/Ops.lean ====
section
/-! SUPPORT. For each shared operation, one lemma that says what it can do; the proofs cite these and unfold nothing. -/

namespace Sys2Proof.Machine

/-- An access of `n` bytes at `a` is in range. -/
theorem firstOutOfRange_eq_none {a n : Nat} : firstOutOfRange a n = none ↔ n = 0 ∨ a + n ≤ 4096 := by
  unfold firstOutOfRange Config.memSize
  split <;> simp_all

/-- An access of `n` bytes at `a` is out of range, and the address reported is the smallest of its addresses above 4095. -/
theorem firstOutOfRange_eq_some {a n bad : Nat} :
    firstOutOfRange a n = some bad ↔ (a ≤ bad ∧ bad < a + n ∧ 4096 ≤ bad ∧ ∀ b, a ≤ b → b < bad → b ≤ 4095) := by
  unfold firstOutOfRange Config.memSize
  split
  · simp only [reduceCtorEq, false_iff]
    omega
  · simp only [Option.some.injEq]
    constructor
    · rintro rfl
      exact ⟨by omega, by omega, by omega, fun b _ _ => by omega⟩
    · rintro ⟨h1, h2, h3, h4⟩
      by_contra hne
      have h5 := h4 (max a 4096) (by omega)
      omega

/-- Reads: in range they answer the bytes, out of range the first bad address. -/
theorem readBytes_cases (s : State) (a n : Nat) :
    (firstOutOfRange a n = none ∧ s.readBytes a n = .ok (s.mem.readList a n)) ∨
    (∃ bad, firstOutOfRange a n = some bad ∧ s.readBytes a n = .error bad) := by
  unfold State.readBytes
  cases firstOutOfRange a n <;> simp

/-- Writes: in range only memory changes, out of range nothing is written (60_exceptions R208). -/
theorem writeBytes_cases (s : State) (a : Nat) (bs : List Byte) :
    (firstOutOfRange a bs.length = none ∧ s.writeBytes a bs = .ok (s.setMem (s.mem.writeList a bs))) ∨
    (∃ bad, firstOutOfRange a bs.length = some bad ∧ s.writeBytes a bs = .error bad) := by
  unfold State.writeBytes
  cases firstOutOfRange a bs.length <;> simp

/-- The fetch: the word at `PC` where both bytes exist, else the fetch fault (60_exceptions R202). -/
theorem fetch_cases (s : State) :
    (s.pc.toNat ≤ 0xFFE ∧ s.fetch = .ok (wordOf (s.mem.read s.pc.toNat) (s.mem.read (s.pc.toNat + 1)))) ∨
    (0xFFF ≤ s.pc.toNat ∧ s.fetch = .error (.memoryOutOfRange ⟨0, s.pc, addressInfo (max s.pc.toNat 4096)⟩)) := by
  unfold State.fetch firstOutOfRange Config.memSize
  by_cases h : s.pc.toNat + 2 ≤ 4096
  · left; exact ⟨by omega, by simp [h]⟩
  · right; exact ⟨by omega, by simp [h]⟩

@[simp] theorem length_bcdDigits (b : Byte) : (bcdDigits b).length = 3 := rfl

@[simp] theorem length_regsUpTo (s : State) (x : Nibble) : (s.regsUpTo x).length = x.toNat + 1 := by
  have := x.isLt
  simp [State.regsUpTo]; omega

/-- Entry `k` of the register group is `V[k]`. -/
theorem getElem?_regsUpTo (s : State) (x k : Nibble) (h : k.toNat ≤ x.toNat) : (s.regsUpTo x)[k.toNat]? = some (s.getV k) := by
  have hk : k.toNat < 16 := k.isLt
  have h1 : k.toNat < x.toNat + 1 := by omega
  simp [State.regsUpTo, State.getV, h1]

/-- Loading a list of bytes from entry `k` up. -/
theorem getElem_loadFrom (bs : List Byte) (v : Vector Byte 16) (k j : Nat) (hj : j < 16) :
    (loadFrom v k bs)[j] = if k ≤ j then (bs[j - k]?).getD v[j] else v[j] := by
  induction bs generalizing v k with
  | nil => simp [loadFrom]
  | cons b bs ih =>
    rw [loadFrom, ih]
    by_cases h : k + 1 ≤ j
    · obtain ⟨d, hd⟩ : ∃ d, j - k = d + 1 := ⟨j - k - 1, by omega⟩
      have hd' : j - (k + 1) = d := by omega
      have hk : k ≤ j := by omega
      have hne : k ≠ j := by omega
      simp [h, hk, hd, hd', Vector.getElem_setIfInBounds_ne, hne]
    · by_cases he : k = j
      · subst he; simp
      · have hk : ¬ k ≤ j := by omega
        simp [h, hk, Vector.getElem_setIfInBounds_ne, he]

/-- A raised fault is a fault, with the report of 60_exceptions R209. -/
theorem raise_eq (kind : Report → Fault) (i : Instr) (info : Word) (s : State) :
    raise kind i info s = .fault (kind ⟨encode i, s.pc, info⟩) := rfl

/-- A count of frames changes the timers only, and nothing while halted. -/
theorem frames_cases (s : State) (k : Nat) :
    (s.halted.isSome = true ∧ s.frames k = s) ∨
    (s.halted.isSome = false ∧ s.frames k = (s.setDt (countDownBy k s.dt)).setSt (countDownBy k s.st)) := by
  unfold State.frames
  cases s.halted.isSome <;> simp

theorem toNat_countDown (t : Byte) : (countDown t).toNat = t.toNat - 1 := by
  unfold countDown
  split
  · subst t; rfl
  · have : t.toNat ≠ 0 := fun h => ‹¬ t = 0› (BitVec.eq_of_toNat_eq h)
    have := t.isLt
    rw [BitVec.toNat_sub]
    simp; omega

theorem toNat_countDownBy (k : Nat) (t : Byte) : (countDownBy k t).toNat = t.toNat - k := by
  unfold countDownBy
  split
  · subst t; simp
  · have := t.isLt
    simp only [BitVec.toNat_ofNat]
    omega

/-- The key found by the search is one of those searched, and is down. -/
theorem lowestDown_some {keys : BitVec 16} {k n : Nat} {r : Nibble} (hk : k + n ≤ 16) (h : lowestDown keys k n = some r) :
    k ≤ r.toNat ∧ r.toNat < k + n ∧ keys.getLsbD r.toNat = true := by
  induction n generalizing k with
  | zero => simp [lowestDown] at h
  | succ n ih =>
    rw [lowestDown] at h
    split at h
    · cases h
      have hm : k % 2 ^ 4 = k := Nat.mod_eq_of_lt (by omega)
      rw [BitVec.toNat_ofNat, hm]
      exact ⟨Nat.le_refl k, by omega, ‹_›⟩
    · have := ih (by omega) h
      exact ⟨by omega, by omega, this.2.2⟩

/-- The search finds no key exactly when none of those searched is down. -/
theorem lowestDown_none {keys : BitVec 16} {k n : Nat} (h : lowestDown keys k n = none) (j : Nat) (h1 : k ≤ j) (h2 : j < k + n) :
    keys.getLsbD j = false := by
  induction n generalizing k with
  | zero => omega
  | succ n ih =>
    rw [lowestDown] at h
    split at h
    · cases h
    · by_cases hj : j = k
      · subst hj; simp_all
      · exact ih h (by omega) (by omega)

end Sys2Proof.Machine
end

