-- ==== Sys2Proof/Laws/Exec.lean ====
section
/-! SUPPORT. What a meaning can answer, once for each shape, and what a step can do. -/

namespace Sys2Proof.Machine

/-- RET answers one of three (40_control_flow R101). -/
theorem execRet_cases (m : Nibble) (s : State) :
    (s.sp = 0 ∧ execRet m s = .fault (.stackUnderflow ⟨encode (.ret m), s.pc, s.sp.setWidth 16⟩)) ∨
    (∃ ra, s.sp ≠ 0 ∧ s.sp.toNat ≤ 16 ∧ s.stackEntry (s.sp.toNat - 1) = some ra ∧
      execRet m s = .next ((s.setSp (s.sp - 1)).setPc (ra + 2))) ∨
    (s.sp ≠ 0 ∧ 16 < s.sp.toNat ∧ execRet m s = .refused (.stackEntryMissing s.sp)) := by
  unfold execRet
  by_cases h0 : s.sp = 0
  · left; exact ⟨h0, by simp [h0, raise]⟩
  · right
    have hpos : s.sp.toNat ≠ 0 := fun e => h0 (BitVec.eq_of_toNat_eq e)
    have hs := stackEntry_isSome s (s.sp.toNat - 1)
    cases he : s.stackEntry (s.sp.toNat - 1) with
    | some ra =>
      left
      rw [he, Option.isSome_some] at hs
      have := of_decide_eq_true hs.symm
      exact ⟨ra, h0, by omega, rfl, if_neg h0⟩
    | none =>
      right
      rw [he, Option.isSome_none] at hs
      have := of_decide_eq_false hs.symm
      exact ⟨h0, by omega, if_neg h0⟩

/-- CALL answers one of two (R103). -/
theorem execCallAddr_cases (addr : Addr) (s : State) :
    (15 ≤ s.sp.toNat ∧ execCallAddr addr s = .fault (.stackOverflow ⟨encode (.callAddr addr), s.pc, s.sp.setWidth 16⟩)) ∨
    (s.sp.toNat < 15 ∧ execCallAddr addr s = .next ((s.push s.pc).jump addr)) := by
  unfold execCallAddr Config.spMax
  by_cases h : s.sp.toNat ≥ 15
  · left; exact ⟨h, by simp [h, raise]⟩
  · right; exact ⟨by omega, by simp [h]⟩

/-- LD B answers one of two (42_index_memory R153). -/
theorem execLdB_cases (x : Nibble) (s : State) :
    (firstOutOfRange s.base 3 = none ∧
      execLdB x s = .next (s.setMem (s.mem.writeList s.base (bcdDigits (s.getV x)))).advance) ∨
    (∃ bad, firstOutOfRange s.base 3 = some bad ∧
      execLdB x s = .fault (.memoryOutOfRange ⟨encode (.ldB x), s.pc, addressInfo bad⟩)) := by
  unfold execLdB
  rcases writeBytes_cases s s.base (bcdDigits (s.getV x)) with ⟨h, e⟩ | ⟨bad, h, e⟩
  · left; exact ⟨h, by rw [e]⟩
  · right; exact ⟨bad, h, by rw [e]; rfl⟩

/-- LD [I], Vx answers one of two (R154). -/
theorem execStoreRegs_cases (x : Nibble) (s : State) :
    (firstOutOfRange s.base (x.toNat + 1) = none ∧
      execStoreRegs x s = .next (s.setMem (s.mem.writeList s.base (s.regsUpTo x))).advance) ∨
    (∃ bad, firstOutOfRange s.base (x.toNat + 1) = some bad ∧
      execStoreRegs x s = .fault (.memoryOutOfRange ⟨encode (.storeRegs x), s.pc, addressInfo bad⟩)) := by
  unfold execStoreRegs
  rcases writeBytes_cases s s.base (s.regsUpTo x) with ⟨h, e⟩ | ⟨bad, h, e⟩ <;> rw [length_regsUpTo] at h
  · left; exact ⟨h, by rw [e]⟩
  · right; exact ⟨bad, h, by rw [e]; rfl⟩

/-- LD Vx, [I] answers one of two (R155). -/
theorem execLoadRegs_cases (x : Nibble) (s : State) :
    (firstOutOfRange s.base (x.toNat + 1) = none ∧
      execLoadRegs x s = .next (s.setRegs (loadFrom s.v 0 (s.mem.readList s.base (x.toNat + 1)))).advance) ∨
    (∃ bad, firstOutOfRange s.base (x.toNat + 1) = some bad ∧
      execLoadRegs x s = .fault (.memoryOutOfRange ⟨encode (.loadRegs x), s.pc, addressInfo bad⟩)) := by
  unfold execLoadRegs
  rcases readBytes_cases s s.base (x.toNat + 1) with ⟨h, e⟩ | ⟨bad, h, e⟩
  · left; exact ⟨h, by rw [e]⟩
  · right; exact ⟨bad, h, by rw [e]; rfl⟩

/-- DRW answers one of two (43_display R171). -/
theorem execDrw_cases (x y n : Nibble) (s : State) :
    (firstOutOfRange s.base n.toNat = none ∧ execDrw x y n s = .next (s.drawn x y (s.mem.readList s.base n.toNat))) ∨
    (∃ bad, firstOutOfRange s.base n.toNat = some bad ∧
      execDrw x y n s = .fault (.memoryOutOfRange ⟨encode (.drw x y n), s.pc, addressInfo bad⟩)) := by
  unfold execDrw
  rcases readBytes_cases s s.base n.toNat with ⟨h, e⟩ | ⟨bad, h, e⟩
  · left; exact ⟨h, by rw [e]⟩
  · right; exact ⟨bad, h, by rw [e]; rfl⟩

/-- A register holds a key value or none (44_keys_timers R183). -/
theorem keyOf_cases (b : Byte) :
    (15 < b.toNat ∧ keyOf b = none) ∨ (b.toNat ≤ 15 ∧ ∃ k : Nibble, keyOf b = some k ∧ k.toNat = b.toNat) := by
  unfold keyOf
  by_cases h : b.toNat > 0xF
  · left; exact ⟨h, by simp [h]⟩
  · right; exact ⟨by omega, b.setWidth 4, by simp [h], by simp; omega⟩

/-- SKP answers one of two (R180). -/
theorem execSkp_cases (x : Nibble) (s : State) :
    (15 < (s.getV x).toNat ∧ execSkp x s = .fault (.keyOutOfRange ⟨encode (.skp x), s.pc, (s.getV x).setWidth 16⟩)) ∨
    (∃ k : Nibble, k.toNat = (s.getV x).toNat ∧ execSkp x s = .next (s.skipIf (s.keyDown k))) := by
  unfold execSkp
  rcases keyOf_cases (s.getV x) with ⟨h, e⟩ | ⟨_, k, e, hk⟩
  · left; exact ⟨h, by rw [e]; rfl⟩
  · right; exact ⟨k, hk, by rw [e]⟩

/-- SKNP answers one of two (R181). -/
theorem execSknp_cases (x : Nibble) (s : State) :
    (15 < (s.getV x).toNat ∧ execSknp x s = .fault (.keyOutOfRange ⟨encode (.sknp x), s.pc, (s.getV x).setWidth 16⟩)) ∨
    (∃ k : Nibble, k.toNat = (s.getV x).toNat ∧ execSknp x s = .next (s.skipIf (!s.keyDown k))) := by
  unfold execSknp
  rcases keyOf_cases (s.getV x) with ⟨h, e⟩ | ⟨_, k, e, hk⟩
  · left; exact ⟨h, by rw [e]; rfl⟩
  · right; exact ⟨k, hk, by rw [e]⟩

/-- Everything a `TICK` can do (30_encoding R84). -/
theorem tick_cases (s : State) :
    (∃ f, s.fetch = .error f ∧ tick s = .fault f) ∨
    (∃ op e, s.fetch = .ok op ∧ decodeWord op = .error e ∧ tick s = .fault (.invalidOpcode ⟨op, s.pc, op⟩)) ∨
    (∃ op i, s.fetch = .ok op ∧ decodeWord op = .ok i ∧ tick s = exec i s) := by
  unfold tick
  cases hf : s.fetch with
  | error f => left; exact ⟨f, rfl, rfl⟩
  | ok op =>
    right
    cases hd : decodeWord op with
    | error e => left; exact ⟨op, e, rfl, hd, by simp [hd]⟩
    | ok i => right; exact ⟨op, i, rfl, hd, by simp [hd]⟩

/-- Everything a step can answer as a next state: nothing while halted, else what the decoded instruction leaves, then
the `FRAME`s. -/
theorem step_next {s t : State} (h : step s = .next t) :
    (s.halted.isSome = true ∧ t = s) ∨
    (s.halted.isSome = false ∧ ∃ op i u, s.fetch = .ok op ∧ decodeWord op = .ok i ∧ exec i s = .next u ∧ t = u.endTick) := by
  unfold step at h
  cases hh : s.halted.isSome with
  | true => left; simp [hh] at h; exact ⟨rfl, h.symm⟩
  | false =>
    right
    rw [hh] at h
    simp only [Bool.false_eq_true, if_false] at h
    rcases tick_cases s with ⟨f, _, e⟩ | ⟨op, d, _, _, e⟩ | ⟨op, i, hf, hd, e⟩
    · rw [e] at h; cases h
    · rw [e] at h; cases h
    · rw [e] at h
      cases he : exec i s with
      | next u => rw [he] at h; cases h; exact ⟨rfl, op, i, u, hf, hd, he, rfl⟩
      | fault f => rw [he] at h; cases h
      | refused r => rw [he] at h; cases h

end Sys2Proof.Machine
end

