-- ==== Sys2Proof/Laws/PerInstr.lean ====
section
/-! SUPPORT. Facts of every instruction as syntax, one lemma per constructor. -/

namespace Sys2Proof.Laws.OpcodeRow

/-- The instruction's own encoding selects its row of the opcode map, and that row is in the map (30_encoding R76). -/
def Statement (i : Instr) : Prop := (opcodeRow i).selects (encode i) = true ∧ opcodeRow i ∈ opcodeMap

theorem cls (m : Nibble) : Statement (.cls m) := by
  refine ⟨beq_iff_eq.mpr ?_, by simp only [opcodeRow]; decide⟩
  simp only [opcodeRow, encode, and_F0FF, fieldFamily_layoutXKK, fieldKK_layoutXKK]; decide

theorem ret (m : Nibble) : Statement (.ret m) := by
  refine ⟨beq_iff_eq.mpr ?_, by simp only [opcodeRow]; decide⟩
  simp only [opcodeRow, encode, and_F0FF, fieldFamily_layoutXKK, fieldKK_layoutXKK]; decide

theorem jpAddr (addr : Addr) : Statement (.jpAddr addr) := by
  refine ⟨beq_iff_eq.mpr ?_, by simp only [opcodeRow]; decide⟩
  simp only [opcodeRow, encode, and_F000, fieldFamily_layoutAddr]; decide

theorem callAddr (addr : Addr) : Statement (.callAddr addr) := by
  refine ⟨beq_iff_eq.mpr ?_, by simp only [opcodeRow]; decide⟩
  simp only [opcodeRow, encode, and_F000, fieldFamily_layoutAddr]; decide

theorem seImm (x : Nibble) (kk : Byte) : Statement (.seImm x kk) := by
  refine ⟨beq_iff_eq.mpr ?_, by simp only [opcodeRow]; decide⟩
  simp only [opcodeRow, encode, and_F000, fieldFamily_layoutXKK]; decide

theorem sneImm (x : Nibble) (kk : Byte) : Statement (.sneImm x kk) := by
  refine ⟨beq_iff_eq.mpr ?_, by simp only [opcodeRow]; decide⟩
  simp only [opcodeRow, encode, and_F000, fieldFamily_layoutXKK]; decide

theorem seReg (x y m : Nibble) : Statement (.seReg x y m) := by
  refine ⟨beq_iff_eq.mpr ?_, by simp only [opcodeRow]; decide⟩
  simp only [opcodeRow, encode, and_F000, fieldFamily_layoutXYN]; decide

theorem ldImm (x : Nibble) (kk : Byte) : Statement (.ldImm x kk) := by
  refine ⟨beq_iff_eq.mpr ?_, by simp only [opcodeRow]; decide⟩
  simp only [opcodeRow, encode, and_F000, fieldFamily_layoutXKK]; decide

theorem addImm (x : Nibble) (kk : Byte) : Statement (.addImm x kk) := by
  refine ⟨beq_iff_eq.mpr ?_, by simp only [opcodeRow]; decide⟩
  simp only [opcodeRow, encode, and_F000, fieldFamily_layoutXKK]; decide

theorem ldReg (x y : Nibble) : Statement (.ldReg x y) := by
  refine ⟨beq_iff_eq.mpr ?_, by simp only [opcodeRow]; decide⟩
  simp only [opcodeRow, encode, and_F00F, fieldFamily_layoutXYN, fieldN_layoutXYN]; decide

theorem orReg (x y : Nibble) : Statement (.orReg x y) := by
  refine ⟨beq_iff_eq.mpr ?_, by simp only [opcodeRow]; decide⟩
  simp only [opcodeRow, encode, and_F00F, fieldFamily_layoutXYN, fieldN_layoutXYN]; decide

theorem andReg (x y : Nibble) : Statement (.andReg x y) := by
  refine ⟨beq_iff_eq.mpr ?_, by simp only [opcodeRow]; decide⟩
  simp only [opcodeRow, encode, and_F00F, fieldFamily_layoutXYN, fieldN_layoutXYN]; decide

theorem xorReg (x y : Nibble) : Statement (.xorReg x y) := by
  refine ⟨beq_iff_eq.mpr ?_, by simp only [opcodeRow]; decide⟩
  simp only [opcodeRow, encode, and_F00F, fieldFamily_layoutXYN, fieldN_layoutXYN]; decide

theorem addReg (x y : Nibble) : Statement (.addReg x y) := by
  refine ⟨beq_iff_eq.mpr ?_, by simp only [opcodeRow]; decide⟩
  simp only [opcodeRow, encode, and_F00F, fieldFamily_layoutXYN, fieldN_layoutXYN]; decide

theorem subReg (x y : Nibble) : Statement (.subReg x y) := by
  refine ⟨beq_iff_eq.mpr ?_, by simp only [opcodeRow]; decide⟩
  simp only [opcodeRow, encode, and_F00F, fieldFamily_layoutXYN, fieldN_layoutXYN]; decide

theorem shr (x y : Nibble) : Statement (.shr x y) := by
  refine ⟨beq_iff_eq.mpr ?_, by simp only [opcodeRow]; decide⟩
  simp only [opcodeRow, encode, and_F00F, fieldFamily_layoutXYN, fieldN_layoutXYN]; decide

theorem subnReg (x y : Nibble) : Statement (.subnReg x y) := by
  refine ⟨beq_iff_eq.mpr ?_, by simp only [opcodeRow]; decide⟩
  simp only [opcodeRow, encode, and_F00F, fieldFamily_layoutXYN, fieldN_layoutXYN]; decide

theorem shl (x y : Nibble) : Statement (.shl x y) := by
  refine ⟨beq_iff_eq.mpr ?_, by simp only [opcodeRow]; decide⟩
  simp only [opcodeRow, encode, and_F00F, fieldFamily_layoutXYN, fieldN_layoutXYN]; decide

theorem sneReg (x y m : Nibble) : Statement (.sneReg x y m) := by
  refine ⟨beq_iff_eq.mpr ?_, by simp only [opcodeRow]; decide⟩
  simp only [opcodeRow, encode, and_F000, fieldFamily_layoutXYN]; decide

theorem ldI (addr : Addr) : Statement (.ldI addr) := by
  refine ⟨beq_iff_eq.mpr ?_, by simp only [opcodeRow]; decide⟩
  simp only [opcodeRow, encode, and_F000, fieldFamily_layoutAddr]; decide

theorem jpV0 (addr : Addr) : Statement (.jpV0 addr) := by
  refine ⟨beq_iff_eq.mpr ?_, by simp only [opcodeRow]; decide⟩
  simp only [opcodeRow, encode, and_F000, fieldFamily_layoutAddr]; decide

theorem rnd (x : Nibble) (kk : Byte) : Statement (.rnd x kk) := by
  refine ⟨beq_iff_eq.mpr ?_, by simp only [opcodeRow]; decide⟩
  simp only [opcodeRow, encode, and_F000, fieldFamily_layoutXKK]; decide

theorem drw (x y n : Nibble) : Statement (.drw x y n) := by
  refine ⟨beq_iff_eq.mpr ?_, by simp only [opcodeRow]; decide⟩
  simp only [opcodeRow, encode, and_F000, fieldFamily_layoutXYN]; decide

theorem skp (x : Nibble) : Statement (.skp x) := by
  refine ⟨beq_iff_eq.mpr ?_, by simp only [opcodeRow]; decide⟩
  simp only [opcodeRow, encode, and_F0FF, fieldFamily_layoutXKK, fieldKK_layoutXKK]; decide

theorem sknp (x : Nibble) : Statement (.sknp x) := by
  refine ⟨beq_iff_eq.mpr ?_, by simp only [opcodeRow]; decide⟩
  simp only [opcodeRow, encode, and_F0FF, fieldFamily_layoutXKK, fieldKK_layoutXKK]; decide

theorem ldVxDt (x : Nibble) : Statement (.ldVxDt x) := by
  refine ⟨beq_iff_eq.mpr ?_, by simp only [opcodeRow]; decide⟩
  simp only [opcodeRow, encode, and_F0FF, fieldFamily_layoutXKK, fieldKK_layoutXKK]; decide

theorem ldVxK (x : Nibble) : Statement (.ldVxK x) := by
  refine ⟨beq_iff_eq.mpr ?_, by simp only [opcodeRow]; decide⟩
  simp only [opcodeRow, encode, and_F0FF, fieldFamily_layoutXKK, fieldKK_layoutXKK]; decide

theorem ldDtVx (x : Nibble) : Statement (.ldDtVx x) := by
  refine ⟨beq_iff_eq.mpr ?_, by simp only [opcodeRow]; decide⟩
  simp only [opcodeRow, encode, and_F0FF, fieldFamily_layoutXKK, fieldKK_layoutXKK]; decide

theorem ldStVx (x : Nibble) : Statement (.ldStVx x) := by
  refine ⟨beq_iff_eq.mpr ?_, by simp only [opcodeRow]; decide⟩
  simp only [opcodeRow, encode, and_F0FF, fieldFamily_layoutXKK, fieldKK_layoutXKK]; decide

theorem addI (x : Nibble) : Statement (.addI x) := by
  refine ⟨beq_iff_eq.mpr ?_, by simp only [opcodeRow]; decide⟩
  simp only [opcodeRow, encode, and_F0FF, fieldFamily_layoutXKK, fieldKK_layoutXKK]; decide

theorem ldF (x : Nibble) : Statement (.ldF x) := by
  refine ⟨beq_iff_eq.mpr ?_, by simp only [opcodeRow]; decide⟩
  simp only [opcodeRow, encode, and_F0FF, fieldFamily_layoutXKK, fieldKK_layoutXKK]; decide

theorem ldB (x : Nibble) : Statement (.ldB x) := by
  refine ⟨beq_iff_eq.mpr ?_, by simp only [opcodeRow]; decide⟩
  simp only [opcodeRow, encode, and_F0FF, fieldFamily_layoutXKK, fieldKK_layoutXKK]; decide

theorem storeRegs (x : Nibble) : Statement (.storeRegs x) := by
  refine ⟨beq_iff_eq.mpr ?_, by simp only [opcodeRow]; decide⟩
  simp only [opcodeRow, encode, and_F0FF, fieldFamily_layoutXKK, fieldKK_layoutXKK]; decide

theorem loadRegs (x : Nibble) : Statement (.loadRegs x) := by
  refine ⟨beq_iff_eq.mpr ?_, by simp only [opcodeRow]; decide⟩
  simp only [opcodeRow, encode, and_F0FF, fieldFamily_layoutXKK, fieldKK_layoutXKK]; decide

end Sys2Proof.Laws.OpcodeRow
end

