-- ==== Sys2Proof/Machine/Asm.lean ====
section
/-! DEFINITION. The assembler syntax of 30_encoding R80, from the instruction to its text. No rule of the machine depends
on it. Numbers are written in hexadecimal with the digits of their field (R80 allows either base; entry 13). -/

namespace Sys2Proof.Machine

/-- A hexadecimal digit. -/
def hexDigit (n : Nibble) : String := (["0", "1", "2", "3", "4", "5", "6", "7"] ++ ["8", "9", "A", "B", "C", "D", "E", "F"]).getD n.toNat "0"

/-- `V0` .. `VF` (10_state R21). -/
def regText (x : Nibble) : String := "V" ++ hexDigit x

def nibbleText (n : Nibble) : String := "0x" ++ hexDigit n
def byteText (b : Byte) : String := "0x" ++ hexDigit (b.extractLsb' 4 4) ++ hexDigit (b.extractLsb' 0 4)
def addrText (a : Addr) : String :=
  "0x" ++ hexDigit (a.extractLsb' 8 4) ++ hexDigit (a.extractLsb' 4 4) ++ hexDigit (a.extractLsb' 0 4)

/-- Mnemonic and operands (R76, R80). -/
def asm : Instr → String
  | .cls _ => "CLS"
  | .ret _ => "RET"
  | .jpAddr addr => "JP " ++ addrText addr
  | .callAddr addr => "CALL " ++ addrText addr
  | .seImm x kk => "SE " ++ regText x ++ ", " ++ byteText kk
  | .sneImm x kk => "SNE " ++ regText x ++ ", " ++ byteText kk
  | .seReg x y _ => "SE " ++ regText x ++ ", " ++ regText y
  | .ldImm x kk => "LD " ++ regText x ++ ", " ++ byteText kk
  | .addImm x kk => "ADD " ++ regText x ++ ", " ++ byteText kk
  | .ldReg x y => "LD " ++ regText x ++ ", " ++ regText y
  | .orReg x y => "OR " ++ regText x ++ ", " ++ regText y
  | .andReg x y => "AND " ++ regText x ++ ", " ++ regText y
  | .xorReg x y => "XOR " ++ regText x ++ ", " ++ regText y
  | .addReg x y => "ADD " ++ regText x ++ ", " ++ regText y
  | .subReg x y => "SUB " ++ regText x ++ ", " ++ regText y
  | .shr x _ => "SHR " ++ regText x
  | .subnReg x y => "SUBN " ++ regText x ++ ", " ++ regText y
  | .shl x _ => "SHL " ++ regText x
  | .sneReg x y _ => "SNE " ++ regText x ++ ", " ++ regText y
  | .ldI addr => "LD I, " ++ addrText addr
  | .jpV0 addr => "JP V0, " ++ addrText addr
  | .rnd x kk => "RND " ++ regText x ++ ", " ++ byteText kk
  | .drw x y n => "DRW " ++ regText x ++ ", " ++ regText y ++ ", " ++ nibbleText n
  | .skp x => "SKP " ++ regText x
  | .sknp x => "SKNP " ++ regText x
  | .ldVxDt x => "LD " ++ regText x ++ ", DT"
  | .ldVxK x => "LD " ++ regText x ++ ", K"
  | .ldDtVx x => "LD DT, " ++ regText x
  | .ldStVx x => "LD ST, " ++ regText x
  | .addI x => "ADD I, " ++ regText x
  | .ldF x => "LD F, " ++ regText x
  | .ldB x => "LD B, " ++ regText x
  | .storeRegs x => "LD [I], " ++ regText x
  | .loadRegs x => "LD " ++ regText x ++ ", [I]"

/-- A word in a listing: its instruction where an assembler emits that word for it, else a data pair `DW` (R80). -/
def asmWord (op : Word) : String :=
  match decodeWord op with
  | .ok i => if i.wellFormed then asm i else "DW 0x" ++ hexDigit (fieldFamily op) ++ hexDigit (fieldX op) ++ hexDigit (fieldY op) ++ hexDigit (fieldN op)
  | .error _ => "DW 0x" ++ hexDigit (fieldFamily op) ++ hexDigit (fieldX op) ++ hexDigit (fieldY op) ++ hexDigit (fieldN op)

end Sys2Proof.Machine
end

