-- ==== Sys2Proof/Tests/Slice0.lean ====
section
/-! SUPPORT. Tests. Every expected result is a vector of 95_test_vectors or is computed by hand from the rule named; a
test is about one step (or one operation) on a small state. -/

namespace Sys2Proof.Tests

open Sys2Proof.Machine

/-! Helpers. -/

/-- Inputs of a `TICK`: these keys down, this choice, this random byte, no `FRAME` after it. -/
def given (keys : BitVec 16) (choice : Nibble) (random : Byte) : Inputs := ⟨keys, choice, random, 0⟩

/-- The reset state with the inputs of the next `TICK` settled: no key down, random byte 0, no `FRAME`. -/
def start : State := { State.reset with script := [given 0 0 0] }

/-- Registers set by a list. -/
def regs (s : State) (l : List (Nibble × Byte)) : State := l.foldl (fun t p => t.setV p.1 p.2) s

/-- Bytes put into memory. -/
def poke (s : State) (a : Nat) (bs : List Byte) : State := s.setMem (s.mem.writeList a bs)

/-- The stack pointer, and stack entries from 0 up. -/
def stacked (s : State) (sp : Byte) (l : List Word) : State :=
  { s with sp := sp, stack := ((List.range 16).zip l).foldl (fun k p => k.setIfInBounds p.1 p.2) s.stack }

/-- The display with these cells on. -/
def lit (l : List (Fin 64 × Fin 32)) : Display := l.foldl (fun d p => d.flip p.1 p.2) Display.clear

/-- One step with a word placed at `PC`. -/
def run (w : Nat) (s : State) : Host.Outcome State Fault Refusal := step (s.withFetchWord 16 w)

/-- The next state, if there is one. -/
def next? : Host.Outcome State Fault Refusal → Option State
  | .next s => some s
  | .fault _ => none
  | .refused _ => none

/-- The fault, if there is one. -/
def fault? : Host.Outcome State Fault Refusal → Option Fault
  | .next _ => none
  | .fault f => some f
  | .refused _ => none

/-- The refusal, if there is one. -/
def refusal? : Host.Outcome State Fault Refusal → Option Refusal
  | .next _ => none
  | .fault _ => none
  | .refused r => some r

/-- `PC` and some registers after one step. -/
def regsAfter (w : Nat) (s : State) (l : List Nibble) : Option (Word × List Byte) :=
  (next? (run w s)).map fun t => (t.pc, l.map t.getV)

/-- `PC` after one step. -/
def pcAfter (w : Nat) (s : State) : Option Word := (next? (run w s)).map (·.pc)

/-- `PC`, `SP` and the lowest stack entries after one step. -/
def stackAfter (w : Nat) (s : State) (k : Nat) : Option (Word × Byte × List Word) :=
  (next? (run w s)).map fun t => (t.pc, t.sp, t.stack.toList.take k)

/-- `PC`, `I` and `VF` after one step. -/
def idxAfter (w : Nat) (s : State) : Option (Word × Word × Byte) :=
  (next? (run w s)).map fun t => (t.pc, t.idx, t.getV 0xF)

/-- `I` and bytes of memory after one step. -/
def memAfter (w : Nat) (s : State) (a n : Nat) : Option (Word × List Byte) :=
  (next? (run w s)).map fun t => (t.idx, t.mem.readList a n)

/-- Whether the display is this one after one step, and `VF`. -/
def shownAfter (w : Nat) (s : State) (d : Display) : Option (Bool × Byte) :=
  (next? (run w s)).map fun t => (t.display == d, t.getV 0xF)

/-- `PC`, `DT` and `ST` after one step. -/
def timersAfter (w : Nat) (s : State) : Option (Word × Byte × Byte) :=
  (next? (run w s)).map fun t => (t.pc, t.dt, t.st)

/-! WellFormed: one ill-formed term for each check (30_encoding R78, R80). -/

theorem test_wf_cls : (Instr.cls 0x7).wellFormed = false ∧ (Instr.cls 0).wellFormed = true := by decide
theorem test_wf_ret : (Instr.ret 0x7).wellFormed = false ∧ (Instr.ret 0).wellFormed = true := by decide
theorem test_wf_seReg : (Instr.seReg 1 2 1).wellFormed = false ∧ (Instr.seReg 1 2 0).wellFormed = true := by decide
theorem test_wf_sneReg : (Instr.sneReg 1 2 0xF).wellFormed = false ∧ (Instr.sneReg 1 2 0).wellFormed = true := by decide
theorem test_wf_shr : (Instr.shr 1 2).wellFormed = false ∧ (Instr.shr 1 0).wellFormed = true := by decide
theorem test_wf_shl : (Instr.shl 1 2).wellFormed = false ∧ (Instr.shl 1 0).wellFormed = true := by decide

/-! Decode: a word written out from R76 for every constructor, family by family. -/

theorem test_decode_family_0 :
    decodeWord 0x00E0 = .ok (.cls 0) ∧ decodeWord 0x00EE = .ok (.ret 0) ∧
    decodeWord 0x0AE0 = .ok (.cls 0xA) ∧ decodeWord 0x07EE = .ok (.ret 0x7) := by decide

theorem test_decode_addresses :
    decodeWord 0x1234 = .ok (.jpAddr 0x234) ∧ decodeWord 0x2300 = .ok (.callAddr 0x300) ∧
    decodeWord 0xA2F0 = .ok (.ldI 0x2F0) ∧ decodeWord 0xBFFF = .ok (.jpV0 0xFFF) := by decide

theorem test_decode_skips :
    decodeWord 0x332A = .ok (.seImm 0x3 0x2A) ∧ decodeWord 0x432B = .ok (.sneImm 0x3 0x2B) ∧
    decodeWord 0x5120 = .ok (.seReg 0x1 0x2 0) ∧ decodeWord 0x5121 = .ok (.seReg 0x1 0x2 0x1) ∧
    decodeWord 0x9120 = .ok (.sneReg 0x1 0x2 0) := by decide

theorem test_decode_immediates :
    decodeWord 0x6A2F = .ok (.ldImm 0xA 0x2F) ∧ decodeWord 0x7120 = .ok (.addImm 0x1 0x20) ∧
    decodeWord 0xC30F = .ok (.rnd 0x3 0x0F) := by decide

theorem test_decode_family_8 :
    decodeWord 0x8120 = .ok (.ldReg 1 2) ∧ decodeWord 0x8121 = .ok (.orReg 1 2) ∧ decodeWord 0x8122 = .ok (.andReg 1 2) ∧
    decodeWord 0x8123 = .ok (.xorReg 1 2) ∧ decodeWord 0x8124 = .ok (.addReg 1 2) ∧ decodeWord 0x8125 = .ok (.subReg 1 2) ∧
    decodeWord 0x8AB6 = .ok (.shr 0xA 0xB) ∧ decodeWord 0x8127 = .ok (.subnReg 1 2) ∧
    decodeWord 0x812E = .ok (.shl 1 2) := by decide

theorem test_decode_drw : decodeWord 0xD7A5 = .ok (.drw 0x7 0xA 0x5) ∧ decodeWord 0xDF11 = .ok (.drw 0xF 0x1 0x1) := by decide

theorem test_decode_family_E : decodeWord 0xE29E = .ok (.skp 2) ∧ decodeWord 0xE2A1 = .ok (.sknp 2) := by decide

theorem test_decode_family_F :
    decodeWord 0xF307 = .ok (.ldVxDt 3) ∧ decodeWord 0xF50A = .ok (.ldVxK 5) ∧ decodeWord 0xF315 = .ok (.ldDtVx 3) ∧
    decodeWord 0xF318 = .ok (.ldStVx 3) ∧ decodeWord 0xF21E = .ok (.addI 2) ∧ decodeWord 0xF429 = .ok (.ldF 4) ∧
    decodeWord 0xF133 = .ok (.ldB 1) ∧ decodeWord 0xF255 = .ok (.storeRegs 2) ∧ decodeWord 0xF165 = .ok (.loadRegs 1) := by
  decide

/-- R77: words of no row. -/
theorem test_decode_invalid :
    decodeWord 0x0000 = .error (.invalidOpcode 0x0000) ∧ decodeWord 0x00FF = .error (.invalidOpcode 0x00FF) ∧
    decodeWord 0x0123 = .error (.invalidOpcode 0x0123) ∧ decodeWord 0x00E1 = .error (.invalidOpcode 0x00E1) ∧
    decodeWord 0x8128 = .error (.invalidOpcode 0x8128) ∧ decodeWord 0x812F = .error (.invalidOpcode 0x812F) ∧
    decodeWord 0xE29F = .error (.invalidOpcode 0xE29F) ∧ decodeWord 0xF1FF = .error (.invalidOpcode 0xF1FF) ∧
    decodeWord 0xF000 = .error (.invalidOpcode 0xF000) := by decide

/-- 95_test_vectors B6: the fields of 0xD7A5. -/
theorem test_fields :
    fieldFamily 0xD7A5 = 0xD ∧ fieldX 0xD7A5 = 0x7 ∧ fieldY 0xD7A5 = 0xA ∧ fieldN 0xD7A5 = 0x5 ∧ fieldKK 0xD7A5 = 0xA5 ∧
    fieldAddr 0xD7A5 = 0x7A5 ∧ hiByte 0xD7A5 = 0xD7 ∧ loByte 0xD7A5 = 0xA5 := by decide

/-- Too few bytes, the rest handed back, the table's numbering. -/
theorem test_decode_bytes :
    decodeBytes [0xD7] = .error .truncated ∧ decodeBytes [0xD7, 0xA5, 0x12] = .ok (.drw 0x7 0xA 0x5, [0x12]) ∧
    encodeBytes (.drw 0x7 0xA 0x5) = [0xD7, 0xA5] ∧ decodeTableWord 16 0xF165 = some (.loadRegs 1) ∧
    decodeTableWord 16 0x00FF = none := by decide

/-- R76: the map has 34 rows and no two of them can be selected by one word. -/
theorem test_opcode_rows_disjoint :
    opcodeMap.length = 34 ∧
    opcodeMap.Pairwise (fun r q => r.pattern &&& r.mask &&& q.mask ≠ q.pattern &&& r.mask &&& q.mask) := by decide

/-- R80: spellings of C1, C2 and C7. -/
theorem test_asm :
    asmWord 0x71FF = "ADD V1, 0xFF" ∧ asmWord 0xF265 = "LD V2, [I]" ∧ asmWord 0x0000 = "DW 0x0000" ∧
    asmWord 0xD015 = "DRW V0, V1, 0x5" := by decide

/-! Control transfer (95_test_vectors B1). -/

theorem test_ret :
    stackAfter 0x00EE (stacked { start with pc := 0x300 } 1 [0x200]) 1 = some (0x202, 0, [0x200]) ∧
    stackAfter 0x00EE (stacked { start with pc := 0x300 } 3 [0x200, 0x250, 0xABC]) 3 = some (0xABE, 2, [0x200, 0x250, 0xABC]) ∧
    stackAfter 0x07EE (stacked { start with pc := 0x300 } 1 [0x200]) 1 = some (0x202, 0, [0x200]) := by decide

theorem test_ret_empty_stack :
    fault? (run 0x00EE { start with pc := 0x300 }) = some (.stackUnderflow ⟨0x00EE, 0x300, 0⟩) := by decide

theorem test_jp : pcAfter 0x1234 start = some 0x234 ∧ pcAfter 0x1FFF start = some 0xFFF := by decide

theorem test_call :
    stackAfter 0x2300 start 1 = some (0x300, 1, [0x200]) ∧
    (stackAfter 0x2300 (stacked start 14 []) 16).map (fun r => (r.1, r.2.1, r.2.2.drop 14)) = some (0x300, 15, [0x200, 0]) := by
  decide

theorem test_call_overflow :
    fault? (run 0x2300 (stacked start 15 [])) = some (.stackOverflow ⟨0x2300, 0x200, 15⟩) := by decide

theorem test_seImm :
    pcAfter 0x332A (regs start [(3, 0x2A)]) = some 0x204 ∧ pcAfter 0x332B (regs start [(3, 0x2A)]) = some 0x202 := by decide

theorem test_sneImm :
    pcAfter 0x432A (regs start [(3, 0x2A)]) = some 0x202 ∧ pcAfter 0x432B (regs start [(3, 0x2A)]) = some 0x204 := by decide

theorem test_seReg :
    pcAfter 0x5120 (regs start [(1, 7), (2, 7)]) = some 0x204 ∧ pcAfter 0x5120 (regs start [(1, 7), (2, 8)]) = some 0x202 ∧
    pcAfter 0x5121 (regs start [(1, 7), (2, 7)]) = some 0x204 := by decide

theorem test_sneReg :
    pcAfter 0x9120 (regs start [(1, 7), (2, 8)]) = some 0x204 ∧ pcAfter 0x9120 (regs start [(1, 7), (2, 7)]) = some 0x202 := by
  decide

theorem test_jpV0 :
    pcAfter 0xB300 (regs start [(0, 5)]) = some 0x305 ∧ pcAfter 0xBFFF (regs start [(0, 0xFF)]) = some 0x10FE := by decide

/-- A skip at the top of memory leaves the memory, with no fault of its own. -/
theorem test_skip_at_the_top : pcAfter 0x3000 { start with pc := 0xFFE } = some 0x1002 := by decide

/-! The fetch (B1). -/

theorem test_fetch_faults :
    fault? (step { start with pc := 0xFFF }) = some (.memoryOutOfRange ⟨0, 0xFFF, 0x1000⟩) ∧
    fault? (step { start with pc := 0xFFFF }) = some (.memoryOutOfRange ⟨0, 0xFFFF, 0xFFFF⟩) ∧
    fault? (step { start with pc := 0x10FE }) = some (.memoryOutOfRange ⟨0, 0x10FE, 0x10FE⟩) := by decide

theorem test_fetch_odd :
    ((next? (step (poke { start with pc := 0x305 } 0x305 [0x6A, 0x2F]))).map fun t => (t.pc, t.getV 0xA)) = some (0x307, 0x2F) := by
  decide

theorem test_invalid_words :
    fault? (run 0x00FF start) = some (.invalidOpcode ⟨0x00FF, 0x200, 0x00FF⟩) ∧
    fault? (run 0x8128 start) = some (.invalidOpcode ⟨0x8128, 0x200, 0x8128⟩) ∧
    fault? (run 0xE29F start) = some (.invalidOpcode ⟨0xE29F, 0x200, 0xE29F⟩) ∧
    fault? (run 0xF1FF start) = some (.invalidOpcode ⟨0xF1FF, 0x200, 0xF1FF⟩) := by decide

/-! Load, arithmetic, logic, shift, random (B2). -/

theorem test_ldImm :
    regsAfter 0x6A2F start [0xA] = some (0x202, [0x2F]) ∧ regsAfter 0x6F80 start [0xF] = some (0x202, [0x80]) := by decide

theorem test_addImm :
    regsAfter 0x7120 (regs start [(1, 0xF0)]) [1, 0xF] = some (0x202, [0x10, 0]) ∧
    regsAfter 0x7F01 (regs start [(0xF, 0xFF)]) [0xF] = some (0x202, [0]) := by decide

theorem test_ldReg : regsAfter 0x8120 (regs start [(2, 0x55)]) [1, 2] = some (0x202, [0x55, 0x55]) := by decide

theorem test_orReg : regsAfter 0x8121 (regs start [(1, 0xF0), (2, 0x0F), (0xF, 1)]) [1, 0xF] = some (0x202, [0xFF, 1]) := by decide

theorem test_andReg : regsAfter 0x8122 (regs start [(1, 0xF3), (2, 0x3C), (0xF, 1)]) [1, 0xF] = some (0x202, [0x30, 1]) := by decide

theorem test_xorReg :
    regsAfter 0x8123 (regs start [(1, 0xFF), (2, 0x0F), (0xF, 1)]) [1, 0xF] = some (0x202, [0xF0, 1]) ∧
    regsAfter 0x8113 (regs start [(1, 0xAB)]) [1] = some (0x202, [0]) := by decide

theorem test_addReg :
    regsAfter 0x8124 (regs start [(1, 0xC8), (2, 0x64)]) [1, 0xF] = some (0x202, [0x2C, 1]) ∧
    regsAfter 0x8124 (regs start [(1, 0xFE), (2, 0x01), (0xF, 1)]) [1, 0xF] = some (0x202, [0xFF, 0]) ∧
    regsAfter 0x8124 (regs start [(1, 0xFF), (2, 0x01)]) [1, 0xF] = some (0x202, [0, 1]) := by decide

theorem test_addReg_VF :
    regsAfter 0x8F14 (regs start [(0xF, 0xF0), (1, 0x20)]) [1, 0xF] = some (0x202, [0x20, 1]) ∧
    regsAfter 0x81F4 (regs start [(1, 0x10), (0xF, 1)]) [1, 0xF] = some (0x202, [0x11, 0]) := by decide

theorem test_subReg :
    regsAfter 0x8125 (regs start [(1, 0x05), (2, 0x0A)]) [1, 0xF] = some (0x202, [0xFB, 0]) ∧
    regsAfter 0x8125 (regs start [(1, 0x0A), (2, 0x05)]) [1, 0xF] = some (0x202, [0x05, 1]) ∧
    regsAfter 0x8125 (regs start [(1, 0x07), (2, 0x07)]) [1, 0xF] = some (0x202, [0, 1]) := by decide

theorem test_subReg_VF : regsAfter 0x8F15 (regs start [(0xF, 0x10), (1, 0x20)]) [1, 0xF] = some (0x202, [0x20, 0]) := by decide

theorem test_shr :
    regsAfter 0x8106 (regs start [(1, 0x05)]) [1, 0xF] = some (0x202, [0x02, 1]) ∧
    regsAfter 0x8126 (regs start [(1, 0x04), (2, 0xFF), (0xF, 1)]) [1, 2, 0xF] = some (0x202, [0x02, 0xFF, 0]) := by decide

theorem test_shr_VF : regsAfter 0x8F06 (regs start [(0xF, 0x02)]) [0xF] = some (0x202, [0]) := by decide

theorem test_subnReg :
    regsAfter 0x8127 (regs start [(1, 0x05), (2, 0x0A)]) [1, 0xF] = some (0x202, [0x05, 1]) ∧
    regsAfter 0x8127 (regs start [(1, 0x0A), (2, 0x05)]) [1, 0xF] = some (0x202, [0xFB, 0]) ∧
    regsAfter 0x8127 (regs start [(1, 0x07), (2, 0x07)]) [1, 0xF] = some (0x202, [0, 1]) := by decide

/-- By hand from R129 and R133: `VF` is the destination, 0x20 - 0x10 has no borrow. -/
theorem test_subnReg_VF : regsAfter 0x8F17 (regs start [(0xF, 0x10), (1, 0x20)]) [1, 0xF] = some (0x202, [0x20, 1]) := by decide

theorem test_shl :
    regsAfter 0x810E (regs start [(1, 0x81)]) [1, 0xF] = some (0x202, [0x02, 1]) ∧
    regsAfter 0x812E (regs start [(1, 0x41), (2, 0xFF), (0xF, 1)]) [1, 2, 0xF] = some (0x202, [0x82, 0xFF, 0]) := by decide

theorem test_shl_VF : regsAfter 0x8F0E (regs start [(0xF, 0x80)]) [0xF] = some (0x202, [1]) := by decide

theorem test_rnd :
    regsAfter 0xC30F { start with script := [given 0 0 0xA7] } [3] = some (0x202, [0x07]) ∧
    regsAfter 0xC300 { regs start [(3, 0x55)] with script := [given 0 0 0xFF] } [3] = some (0x202, [0]) ∧
    regsAfter 0xC3FF { start with script := [given 0 0 0x5A] } [3] = some (0x202, [0x5A]) := by decide

/-! Index and memory transfer (B3). -/

theorem test_ldI : idxAfter 0xA2F0 start = some (0x202, 0x2F0, 0) ∧ idxAfter 0xAFFF start = some (0x202, 0xFFF, 0) := by decide

theorem test_addI :
    idxAfter 0xF21E (regs { start with idx := 0xFFF } [(2, 1)]) = some (0x202, 0x1000, 0) ∧
    idxAfter 0xF21E (regs { start with idx := 0xFFFF } [(2, 0xFF)]) = some (0x202, 0x00FE, 0) := by decide

theorem test_ldF :
    idxAfter 0xF429 (regs start [(4, 0x0A)]) = some (0x202, 0x32, 0) ∧ idxAfter 0xF429 (regs start [(4, 0x10)]) = some (0x202, 0x50, 0) ∧
    idxAfter 0xF429 (regs start [(4, 0xFF)]) = some (0x202, 0x4FB, 0) := by decide

theorem test_ldB :
    memAfter 0xF133 (regs { start with idx := 0x300 } [(1, 0xFF)]) 0x300 3 = some (0x300, [2, 5, 5]) ∧
    memAfter 0xF133 (poke (regs { start with idx := 0x300 } [(1, 0)]) 0x300 [9, 9, 9]) 0x300 3 = some (0x300, [0, 0, 0]) ∧
    memAfter 0xF133 (regs { start with idx := 0xFFD } [(1, 0x7B)]) 0xFFD 3 = some (0xFFD, [1, 2, 3]) := by decide

theorem test_ldB_too_far :
    fault? (run 0xF133 (regs { start with idx := 0xFFE } [(1, 0x7B)])) = some (.memoryOutOfRange ⟨0xF133, 0x200, 0x1000⟩) ∧
    fault? (run 0xF133 (regs { start with idx := 0x1000 } [(1, 0x7B)])) = some (.memoryOutOfRange ⟨0xF133, 0x200, 0x1000⟩) := by
  decide

theorem test_storeRegs :
    memAfter 0xF255 (regs { start with idx := 0x400 } [(0, 0x11), (1, 0x22), (2, 0x33), (3, 0x44)]) 0x400 4 =
      some (0x400, [0x11, 0x22, 0x33, 0]) ∧
    memAfter 0xF055 (regs { start with idx := 0x400 } [(0, 0x11), (1, 0x22)]) 0x400 2 = some (0x400, [0x11, 0]) := by decide

theorem test_storeRegs_too_far :
    fault? (run 0xFF55 { start with idx := 0xFF1 }) = some (.memoryOutOfRange ⟨0xFF55, 0x200, 0x1000⟩) := by decide

theorem test_loadRegs :
    regsAfter 0xF265 (poke (regs { start with idx := 0x400 } [(3, 0x77)]) 0x400 [0xAA, 0xBB, 0xCC, 0xDD]) [0, 1, 2, 3] =
      some (0x202, [0xAA, 0xBB, 0xCC, 0x77]) ∧
    regsAfter 0xF065 (poke { start with idx := 0xFFF } 0xFFF [0x5A]) [0] = some (0x202, [0x5A]) := by decide

theorem test_loadRegs_too_far :
    fault? (run 0xF165 (poke { start with idx := 0xFFF } 0xFFF [0x5A])) = some (.memoryOutOfRange ⟨0xF165, 0x200, 0x1000⟩) := by
  decide

/-! Display (B4). -/

theorem test_cls :
    shownAfter 0x00E0 { regs start [(0xF, 1)] with display := lit [(0, 0), (63, 31), (5, 7)] } (lit []) = some (true, 1) ∧
    shownAfter 0x0AE0 { start with display := lit [(0, 0)] } (lit []) = some (true, 0) := by decide

theorem test_drw_wrap_x :
    shownAfter 0xD011 (poke (regs { start with idx := 0x300 } [(0, 0x3C)]) 0x300 [0xFF])
      (lit [(60, 0), (61, 0), (62, 0), (63, 0), (0, 0), (1, 0), (2, 0), (3, 0)]) = some (true, 0) := by decide

theorem test_drw_collision :
    shownAfter 0xD011 { poke { start with idx := 0x300 } 0x300 [0xC0] with display := lit [(1, 0), (5, 5)] }
      (lit [(0, 0), (5, 5)]) = some (true, 1) ∧
    shownAfter 0xDF11 (poke (regs { start with idx := 0x300 } [(0xF, 9), (1, 2)]) 0x300 [0x80]) (lit [(9, 2)]) = some (true, 0) ∧
    shownAfter 0xD011 (poke (regs { start with idx := 0x300 } [(0, 0xFF), (1, 0xFF)]) 0x300 [0x80]) (lit [(63, 31)]) =
      some (true, 0) := by decide

theorem test_drw_wrap_y :
    shownAfter 0xD012 (poke (regs { start with idx := 0x300 } [(1, 0x1F)]) 0x300 [0x80, 0x80]) (lit [(0, 31), (0, 0)]) =
      some (true, 0) ∧
    shownAfter 0xD011 (poke (regs { start with idx := 0x300 } [(0, 0x0A), (1, 3)]) 0x300 [0x01]) (lit [(17, 3)]) =
      some (true, 0) := by decide

/-- `n = 0` with `I` out of range, and the last byte of memory. -/
theorem test_drw_edges :
    shownAfter 0xD010 { regs start [(0xF, 1)] with idx := 0xFFFF } (lit []) = some (true, 0) ∧
    shownAfter 0xD011 (poke { start with idx := 0xFFF } 0xFFF [0x80]) (lit [(0, 0)]) = some (true, 0) ∧
    fault? (run 0xD012 (poke { start with idx := 0xFFF } 0xFFF [0xFF])) = some (.memoryOutOfRange ⟨0xD012, 0x200, 0x1000⟩) := by
  decide

/-! Keys and timers (B5). -/

theorem test_skp :
    pcAfter 0xE29E { regs start [(2, 5)] with script := [given 0x0020 0 0] } = some 0x204 ∧
    pcAfter 0xE29E { regs start [(2, 5)] with script := [given 0x0010 0 0] } = some 0x202 ∧
    pcAfter 0xE29E { regs start [(2, 0xF)] with script := [given 0x8000 0 0] } = some 0x204 := by decide

theorem test_sknp :
    pcAfter 0xE2A1 { regs start [(2, 5)] with script := [given 0x0020 0 0] } = some 0x202 ∧
    pcAfter 0xE2A1 (regs start [(2, 5)]) = some 0x204 := by decide

theorem test_key_out_of_range :
    fault? (run 0xE29E (regs start [(2, 0x10)])) = some (.keyOutOfRange ⟨0xE29E, 0x200, 0x10⟩) ∧
    fault? (run 0xE2A1 (regs start [(2, 0xFF)])) = some (.keyOutOfRange ⟨0xE2A1, 0x200, 0xFF⟩) := by decide

theorem test_ldVxDt : regsAfter 0xF307 { start with dt := 30 } [3] = some (0x202, [0x1E]) := by decide

theorem test_ldVxK_waits : regsAfter 0xF50A (regs start [(5, 0x77)]) [5] = some (0x200, [0x77]) := by decide

theorem test_ldVxK_takes :
    regsAfter 0xF50A { regs start [(5, 0x77)] with script := [given 0x0800 0 0] } [5] = some (0x202, [0x0B]) ∧
    regsAfter 0xF50A { regs start [(5, 0x77)] with script := [given 0x0001 3 0] } [5] = some (0x202, [0]) ∧
    regsAfter 0xF50A { start with script := [given 0x0810 0xB 0] } [5] = some (0x202, [0x0B]) := by decide

theorem test_ldDtVx : timersAfter 0xF315 (regs { start with st := 9 } [(3, 0x3C)]) = some (0x202, 60, 9) := by decide

theorem test_ldStVx : timersAfter 0xF318 (regs { start with dt := 9 } [(3, 5)]) = some (0x202, 9, 5) := by decide

/-- The `FRAME` vectors. -/
theorem test_frame :
    ({ start with dt := 2 }.frame.dt, { start with dt := 2 }.frame.st) = (1, 0) ∧ start.frame = start ∧
    ({ start with dt := 255, st := 1 }.frame.dt, { start with dt := 255, st := 1 }.frame.st) = (254, 0) ∧
    ({ start with dt := 1, st := 1 }.frame.frame.dt, { start with dt := 1, st := 1 }.frame.frame.st) = (0, 0) ∧
    ({ start with dt := 5 }.halt (.keyOutOfRange ⟨0, 0, 0⟩)).frame.dt = 5 := by decide

/-- `FRAME`s between two `TICK`s come after the instruction: C4, schedule (ii), `TICK` 2 and the `FRAME` after it. -/
theorem test_frames_after_a_tick :
    timersAfter 0xF015 { regs start [(0, 3)] with script := [⟨0, 0, 0, 1⟩] } = some (0x202, 2, 0) := by decide

/-! Reset, load, latch (B5, A9, A10). -/

theorem test_reset :
    State.reset.pc = 0x200 ∧ (State.resetWith (Vector.replicate 80 0xAB)).mem.readList 78 4 = [0xAB, 0xAB, 0, 0] ∧ State.reset.mem.readList 0x23 5 = [0xF0, 0x10, 0x20, 0x40, 0x40] ∧ State.reset.mem.read 0x50 = 0 := by
  decide

/-- C5's image: two bytes go to 0x200. -/
theorem test_load_rom :
    (applyEvent State.reset (.loadRom [0x22, 0x00])).map (fun t => (t.mem.readList 0x1FF 4, t.boot)) =
      some ([0x00, 0x22, 0x00, 0x00], .loaded) := by decide

/-- An all-zero word faults, the latch is set and `PC` stays. -/
theorem test_latch :
    (tickEvent start).map (fun t => (t.pc, t.faultReport, t.soundOn)) = some (0x200, some (1, ⟨0, 0x200, 0⟩), false) := by decide

/-! ## Witnesses: for each statement with hypotheses, states and operands that meet them, clause by clause. -/

/-- Words that decode, and one that does not: EncodeOfDecodeIsIdentity, InvalidExactlyWhenNoRowSelected. -/
theorem witness_decode :
    decodeWord 0xD7A5 = .ok (.drw 0x7 0xA 0x5) ∧ (∀ r ∈ opcodeMap, r.selects 0x00FF = false) ∧
    (⟨0xF000, 0xD000⟩ : OpcodeRow).selects 0xD7A5 = true := by decide

/-- RetPopsAndAddsTwo: `SP` 0, 1 and 16. -/
theorem witness_ret :
    (stacked start 0 []).sp = 0 ∧
    (1 ≤ (stacked start 1 [0x200]).sp.toNat ∧ (stacked start 1 [0x200]).stackEntry 0 = some 0x200) ∧
    (1 ≤ (stacked start 16 []).sp.toNat ∧ (stacked start 16 []).stackEntry 15 = some 0) := by decide

/-- CallPushesItsOwnAddress: `SP` 14 and 15. -/
theorem witness_call : (stacked start 14 []).sp.toNat < 15 ∧ 15 ≤ (stacked start 15 []).sp.toNat := by decide

/-- SkipsAddFourOrTwo: equal and unequal operands. -/
theorem witness_skips :
    (regs start [(3, 0x2A)]).getV 3 = 0x2A ∧ (regs start [(3, 0x2A)]).getV 3 ≠ 0x2B ∧
    (regs start [(1, 7), (2, 7)]).getV 1 = (regs start [(1, 7), (2, 7)]).getV 2 ∧
    (regs start [(1, 7), (2, 8)]).getV 1 ≠ (regs start [(1, 7), (2, 8)]).getV 2 := by decide

/-- The `x ≠ 0xF` clauses of the five flag instructions. -/
theorem witness_flag_operands : (0xE : Nibble) ≠ 0xF := by decide

/-- FlagSurvivesAsDestination: the five answer a next state. -/
theorem witness_flag_destination :
    (next? (exec (.addReg 0xF 1) start)).isSome = true ∧ (next? (exec (.subReg 0xF 1) start)).isSome = true ∧
    (next? (exec (.subnReg 0xF 1) start)).isSome = true ∧ (next? (exec (.shr 0xF 1) start)).isSome = true ∧
    (next? (exec (.shl 0xF 1) start)).isSome = true := by decide

/-- BcdStoresThreeDigits: `I + 2` is 4095 and 4096. -/
theorem witness_bcd :
    { start with idx := 0xFFD }.idx.toNat + 2 ≤ 4095 ∧ { start with idx := 0xFFE }.idx.toNat + 2 > 4095 := by decide

/-- StoreRegsStoresTheGroup, LoadRegsLoadsTheGroup: `I + x` is 4095 and 4096. -/
theorem witness_group :
    { start with idx := 0xFF0 }.idx.toNat + (0xF : Nibble).toNat ≤ 4095 ∧
    { start with idx := 0xFF1 }.idx.toNat + (0xF : Nibble).toNat > 4095 := by decide

/-- StoreThenLoadRestoresTheGroup: a store, then registers cleared with `I` and memory kept. -/
theorem witness_store_then_load :
    ∃ t, exec (.storeRegs 0xF) { start with idx := 0xFF0 } = .next t ∧
      KeepsIndex t (regs t [(0, 0), (1, 0)]) ∧ KeepsMem t (regs t [(0, 0), (1, 0)]) :=
  ⟨_, rfl, rfl, fun _ => rfl⟩

/-- DrwDrawsTheRowsAtI: no rows, the last byte of memory, one byte too many. -/
theorem witness_drw :
    (0 : Nibble).toNat = 0 ∧ { start with idx := 0xFFF }.idx.toNat + (1 : Nibble).toNat - 1 ≤ 4095 ∧
    ((2 : Nibble).toNat > 0 ∧ { start with idx := 0xFFF }.idx.toNat + (2 : Nibble).toNat - 1 > 4095) := by decide

/-- SpriteXorsTheCellsItHits and CollisionIsAnOnCellHit: a sprite of 15 rows, a cell it hits after wrapping. -/
theorem witness_sprite_hit :
    (List.replicate 15 (0x81 : Byte)).length ≤ 15 ∧ SpriteHits 60 20 (List.replicate 15 0x81) 3 2 ∧
    (lit [(3, 2)]).cell 3 2 = true :=
  ⟨by decide, ⟨14, 7, 0x81, by decide, by decide, by decide, by decide, by decide⟩, by decide⟩

/-- SpriteXorsTheCellsItHits: a cell the sprite does not hit. -/
theorem witness_sprite_miss : ¬ SpriteHits 0 0 [0x80] 1 0 := by
  rintro ⟨r, b, row, hr, hb, hrow, hx, -⟩
  have : b = 1 := by simp at hx; omega
  subst this
  cases r with
  | zero => simp at hr; subst hr; simp at hrow
  | succ r => simp at hr

/-- DrawingTwiceRestoresTheDisplay: a display that is clear under the sprite. -/
theorem witness_draw_twice :
    [(0xFF : Byte)].length ≤ 15 ∧ ∀ px py, SpriteHits 60 0 [0xFF] px py → Display.clear.cell px py = false := by
  refine ⟨by decide, fun px py _ => ?_⟩
  simp [Display.cell, Display.clear]

/-- KeySkipsTestTheLevel: a register at 16 and at 15, that key down and up. -/
theorem witness_keys :
    ((regs start [(2, 0x10)]).getV 2).toNat > 15 ∧ ((regs start [(2, 0xF)]).getV 2).toNat = (0xF : Nibble).toNat ∧
    { start with script := [given 0x8000 0 0] }.keyDown 0xF = true ∧ start.keyDown 0xF = false := by decide

/-- WaitForKeyRepeatsOrStores: no key, and key F. -/
theorem witness_key_any : start.keyAny = none ∧ { start with script := [given 0x8000 0 0] }.keyAny = some 0xF := by decide

/-- KeyInputsAreConsistent: a down key that the choice does not name. -/
theorem witness_key_choice : (given 0x8001 0 0).keys.getLsbD (0xF : Nibble).toNat = true := by decide

/-- StepRunsTheDecodedInstruction: a running state at the last fetchable `PC`, whose instruction completes, faults, and is refused. -/
theorem witness_step :
    { start with pc := 0xFFE }.halted = none ∧ { start with pc := 0xFFE }.pc.toNat ≤ 0xFFE ∧
    decodeWord (wordOf 0x00 0xEE) = .ok (.ret 0) ∧
    (next? (exec (.ret 0) (stacked { start with pc := 0xFFE } 1 [0x200]))).isSome = true ∧
    fault? (exec (.ret 0) { start with pc := 0xFFE }) = some (.stackUnderflow ⟨0x00EE, 0xFFE, 0⟩) ∧
    refusal? (exec (.ret 0) (stacked { start with pc := 0xFFE } 17 [])) = some (.stackEntryMissing 17) := by decide

/-- StepRunsTheDecodedInstruction: the bytes of that instruction at that `PC`. -/
theorem witness_step_bytes :
    (poke { start with pc := 0xFFE } 0xFFE [0x00, 0xEE]).mem.read 0xFFE = 0x00 ∧
    (poke { start with pc := 0xFFE } 0xFFE [0x00, 0xEE]).mem.read 0xFFF = 0xEE := by decide

/-- FetchIsBigEndianAndBounded, FetchPastTheEndIsFatal: `PC` at 0xFFE, 0xFFF and 0x1000. -/
theorem witness_fetch :
    { start with pc := 0xFFE }.pc.toNat + 1 ≤ 4095 ∧ { start with pc := 0xFFF }.pc.toNat = 4095 ∧
    { start with pc := 0x1000 }.pc.toNat > 4095 ∧ 0xFFF ≤ { start with pc := 0xFFF }.pc.toNat ∧ start.halted = none := by decide

/-- InvalidWordIsFatal: the reset state, whose memory holds zeros at `PC`. -/
theorem witness_invalid :
    State.reset.halted = none ∧ State.reset.pc.toNat ≤ 0xFFE ∧
    wordOf (State.reset.mem.read 0x200) (State.reset.mem.read 0x201) = 0 ∧ ∀ r ∈ opcodeMap, r.selects 0 = false := by decide

/-- EachFaultHasItsInstructionAndReport: one state for each kind an instruction raises. -/
theorem witness_faults :
    fault? (exec (.ret 0) start) = some (.stackUnderflow ⟨0x00EE, 0x200, 0⟩) ∧
    fault? (exec (.callAddr 0x300) (stacked start 15 [])) = some (.stackOverflow ⟨0x2300, 0x200, 15⟩) ∧
    fault? (exec (.sknp 2) (regs start [(2, 0x10)])) = some (.keyOutOfRange ⟨0xE2A1, 0x200, 0x10⟩) ∧
    fault? (exec (.loadRegs 1) { start with idx := 0xFFF }) = some (.memoryOutOfRange ⟨0xF165, 0x200, 0x1000⟩) := by decide

/-- FaultsAreLatchedAndPrecise: the reset state faults at its first step. -/
theorem witness_fault_step :
    State.reset.halted = none ∧ fault? (step State.reset) = some (.invalidOpcode ⟨0, 0x200, 0⟩) := by decide

/-- HaltedIsAbsorbing, and the second half of FrameDecrementsNonzeroTimers: a halted state. -/
theorem witness_halted : (start.halt (.invalidOpcode ⟨0, 0x200, 0⟩)).halted.isSome = true ∧ HostEvent.tick ≠ .reset := by decide

/-- StepCompletesOrFaults, EveryStepKeepsTheInvariant, and the other statements under the invariant. -/
theorem witness_inv : State.reset.Inv ∧ (State.reset.withFetchWord 16 0x6A2F).Inv ∧ start.Inv :=
  ⟨⟨by decide, by decide⟩, ⟨by decide, by decide⟩, ⟨by decide, by decide⟩⟩

/-- EveryStepKeepsTheInvariant, StepIsATickThenFrames: a running state with a next one. -/
theorem witness_next : start.halted = none ∧ (next? (run 0xF055 start)).isSome = true := by decide

/-- OnlyRetRefusesAndOnlyPastTheStack: both sides of it, and the last `SP` that is not refused. -/
theorem witness_refusal :
    refusal? (exec (.ret 0) (stacked start 17 [])) = some (.stackEntryMissing 17) ∧ 16 < (stacked start 17 []).sp.toNat ∧
    refusal? (exec (.ret 0) (stacked start 16 [])) = none := by decide

/-- FrameDecrementsNonzeroTimers, TimersReachZeroAfterTheirCount: a running state, a timer at 1, 255 and 0. -/
theorem witness_timers :
    { start with dt := 1 }.halted = none ∧ { start with dt := 1 }.dt ≠ 0 ∧ { start with st := 255 }.st ≠ 0 ∧ start.dt = 0 ∧
    start.st = 0 ∧ { start with dt := 3 }.dt.toNat ≤ 3 := by decide

/-- ResetLeavesTheseValues: both of its cases, the second from a halted state of a machine with another `FONT`. -/
theorem witness_reset :
    State.reset = State.resetWith Config.defaultFont ∧
    ((State.resetWith (Vector.replicate 80 0xFF)).halt (.keyOutOfRange ⟨0, 0, 0⟩)).mem.font = Vector.replicate 80 0xFF ∧
    resetEvent ((State.resetWith (Vector.replicate 80 0xFF)).halt (.keyOutOfRange ⟨0, 0, 0⟩)) =
      State.resetWith (Vector.replicate 80 0xFF) :=
  ⟨rfl, rfl, rfl⟩

/-- OnlyTwoInstructionsWriteMemory: each of the two changes a byte, `LD B` its third. -/
theorem witness_memory_writers :
    (next? (exec (.ldB 1) (regs { start with idx := 0x300 } [(1, 7)]))).map (fun t => t.mem.read 0x302 != start.mem.read 0x302) =
      some true ∧
    (next? (exec (.storeRegs 1) (regs { start with idx := 0x300 } [(1, 7)]))).map
      (fun t => t.mem.read 0x301 != start.mem.read 0x301) = some true := by decide

/-- OnlyClsAndDrwChangeTheDisplay: each of the two changes it. -/
theorem witness_display_writers :
    (next? (exec (.cls 0) { start with display := lit [(0, 0)] })).map (fun t => t.display != lit [(0, 0)]) = some true ∧
    (next? (exec (.drw 0 1 5) start)).map (fun t => t.display != start.display) = some true := by decide

/-- SpecialRegistersHaveTheirWriters: `I`, `SP`, a stack entry, `DT` and `ST` change. -/
theorem witness_special_writers :
    (next? (exec (.ldI 0x300) start)).map (fun t => t.idx != start.idx) = some true ∧
    (next? (exec (.callAddr 0x300) start)).map (fun t => (t.sp != start.sp, t.stackEntry 0 != start.stackEntry 0)) =
      some (true, true) ∧
    (next? (exec (.ldDtVx 1) (regs start [(1, 7)]))).map (fun t => t.dt != start.dt) = some true ∧
    (next? (exec (.ldStVx 1) (regs start [(1, 7)]))).map (fun t => t.st != start.st) = some true := by decide

/-- OnlySixInstructionsWriteTheFlag: a flag that changes, and a named destination. -/
theorem witness_flag_writers :
    (next? (exec (.subReg 1 2) start)).map (fun t => t.getV 0xF != start.getV 0xF) = some true ∧
    (next? (exec (.drw 0 1 1) { start with display := lit [(0, 0)] })).map (fun t => t.getV 0xF != start.getV 0xF) = some true ∧
    (next? (exec (.ldImm 0xF 9) start)).map (fun t => t.getV 0xF != start.getV 0xF) = some true := by decide

/-- EveryInstructionHasItsFinalPc: the return, and the wait with and without a key, each with a next state. -/
theorem witness_final_pc :
    (next? (exec (.ret 0) (stacked start 1 [0xFFFE]))).map (·.pc) = some 0 ∧
    (next? (exec (.ldVxK 5) start)).map (·.pc) = some 0x200 ∧
    (next? (exec (.ldVxK 5) { start with script := [given 1 0 0] })).map (·.pc) = some 0x202 ∧
    (next? (exec (.skp 2) { start with script := [given 1 0 0] })).map (·.pc) = some 0x204 := by decide

/-- OnlyFourInstructionsReadInputs: an instruction that is none of the four, completing, faulting and refused. -/
theorem witness_no_input :
    (∀ x kk, Instr.ret 0 ≠ .rnd x kk) ∧ (∀ x, Instr.ret 0 ≠ .skp x ∧ Instr.ret 0 ≠ .sknp x ∧ Instr.ret 0 ≠ .ldVxK x) ∧
    (next? (exec (.ret 0) (stacked start 1 [0x200]))).isSome = true ∧ (fault? (exec (.ret 0) start)).isSome = true ∧
    (refusal? (exec (.ret 0) (stacked start 17 []))).isSome = true :=
  ⟨fun _ _ => nofun, fun _ => ⟨nofun, nofun, nofun⟩, by decide, by decide, by decide⟩

/-- CanonicalMemoriesAreEqualData: one memory reached by two ways. -/
theorem witness_canonical :
    (start.mem.writeList 0x300 [1, 2]).wf = true ∧ (((start.mem.writeList 0x301 [2, 9]).write 0x302 0).write 0x300 1).wf = true ∧
    (start.mem.writeList 0x300 [1, 2]).font = (((start.mem.writeList 0x301 [2, 9]).write 0x302 0).write 0x300 1).font ∧
    start.mem.writeList 0x300 [1, 2] = ((start.mem.writeList 0x301 [2, 9]).write 0x302 0).write 0x300 1 := by decide

/-- StoresAreSeenByTheNextFetch: a group stored up to the last byte of memory, then a fetch whose low byte is its last
byte, and whose high byte is its first. -/
theorem witness_store_seen :
    ∃ t, exec (.storeRegs 1) { start with idx := 0xFFE } = .next t ∧ (t.setPc 0xFFE).pc.toNat + 1 ≤ 4095 ∧
      (∀ a, (t.setPc 0xFFE).mem.read a = t.mem.read a) ∧ (t.setPc 0xFFE).pc.toNat = 0xFFE + (0 : Nibble).toNat ∧
      (t.setPc 0xFFE).pc.toNat + 1 = 0xFFE + (1 : Nibble).toNat :=
  ⟨_, rfl, by decide, fun _ => rfl, by decide, by decide⟩

/-- StoresAreSeenByTheNextFetch: three digits stored, then a fetch of the first two, of the last two, of the byte below. -/
theorem witness_digits_seen :
    ∃ t, exec (.ldB 1) { start with idx := 0xFFD } = .next t ∧ (∀ a, (t.setPc 0xFFE).mem.read a = t.mem.read a) ∧
      (t.setPc 0xFFD).pc.toNat = 0xFFD + 0 ∧ (t.setPc 0xFFE).pc.toNat + 1 = 0xFFD + 2 ∧
      (t.setPc 0xFFC).pc.toNat + 1 = 0xFFD + 0 ∧ (t.setPc 0xFFE).pc.toNat + 1 ≤ 4095 :=
  ⟨_, rfl, fun _ => rfl, by decide, by decide, by decide, by decide⟩

/-- R63, by hand: a step stores 6A at 0x300, and a fetch at 0x2FF then reads the byte below it and that one. -/
theorem test_store_then_fetch :
    (next? (run 0xF055 (poke (regs { start with idx := 0x300 } [(0, 0x6A)]) 0x2FF [0x60]))).bind
      (fun t => (t.setPc 0x2FF).fetch.toOption) = some 0x606A := by decide

/-- LoadRomCopiesOrRejects: the largest image, and one byte more. -/
theorem witness_load_rom :
    start.halted = none ∧ start.boot = .fresh ∧ (List.replicate 3584 (0x12 : Byte)).length ≤ 3584 ∧
    (List.replicate 3585 (0x12 : Byte)).length > 3584 :=
  ⟨rfl, rfl, Nat.le_of_eq List.length_replicate, Nat.lt_of_lt_of_eq (by decide) List.length_replicate.symm⟩

/-- LoadRomIsInOrderOnce: a load that is ok, and a step that completes. -/
theorem witness_load_order :
    (∃ t, loadRom [0x12, 0x00] State.reset = .ok t) ∧ start.halted = none ∧ (next? (run 0x1234 start)).isSome = true :=
  ⟨⟨_, rfl⟩, rfl, by decide⟩

/-- ParkedStaysParked: 1200 at 0x200, and a jump to itself at the last fetchable address. -/
theorem witness_parked :
    (start.withFetchWord 16 0x1200).halted = none ∧ Parked (start.withFetchWord 16 0x1200) ∧
    Parked ({ start with pc := 0xFFE }.withFetchWord 16 0x1FFE) :=
  ⟨rfl, ⟨by decide, by decide⟩, ⟨by decide, by decide⟩⟩

/-- PlacedWordIsTheNextInstruction: an instruction that completes, one that faults, a `PC` past the end. -/
theorem witness_placed :
    decodeTableWord 16 0x1234 = some (.jpAddr 0x234) ∧ (next? (exec (.jpAddr 0x234) (start.withFetchWord 16 0x1234))).isSome = true ∧
    decodeTableWord 16 0x00EE = some (.ret 0) ∧ (fault? (exec (.ret 0) (start.withFetchWord 16 0x00EE))).isSome = true ∧
    pcAfter 0x1234 { start with pc := 0xFFFF } = some 0x234 := by decide

end Sys2Proof.Tests
end

/-! ## The scope (00_scope): the key inputs, the outcomes of a step, steps as events, who reads the inputs -/

namespace Sys2Proof.Machine

/-! ### The key inputs (00_scope R7) -/

/-- How `KeyAny` is found: the host's choice where that key is down, else the lowest key that is down. -/
theorem keyAny_cases (s : State) :
    (s.keyDown s.inputs.keyChoice = true ∧ s.keyAny = some s.inputs.keyChoice) ∨
    (s.keyDown s.inputs.keyChoice = false ∧ s.keyAny = lowestDown s.inputs.keys 0 16) := by
  unfold State.keyAny
  cases s.keyDown s.inputs.keyChoice <;> simp

/-- The choice is free, so every down key can be the one named. -/
theorem keyAny_of_choice_down {s : State} (h : s.keyDown s.inputs.keyChoice = true) : s.keyAny = some s.inputs.keyChoice :=
  if_pos h

theorem keyDown_of_keyAny {s : State} {k : Nibble} (h : s.keyAny = some k) : s.keyDown k = true := by
  rcases keyAny_cases s with ⟨hdown, e⟩ | ⟨_, e⟩
  · cases e.symm.trans h; exact hdown
  · obtain ⟨_, _, hdown⟩ := lowestDown_some (by decide) (e.symm.trans h)
    exact hdown

theorem keyAny_eq_none {s : State} : s.keyAny = none ↔ ∀ k : Nibble, s.keyDown k = false := by
  constructor
  · intro h k
    rcases keyAny_cases s with ⟨_, e⟩ | ⟨_, e⟩
    · cases e.symm.trans h
    · exact lowestDown_none (e.symm.trans h) k.toNat (Nat.zero_le _) (by simpa using k.isLt)
  · intro h
    refine Option.eq_none_iff_forall_ne_some.mpr fun k hk => ?_
    exact Bool.noConfusion ((h k).symm.trans (keyDown_of_keyAny hk))

/-! ### What `exec` can answer -/

theorem keepsHost_takeKey (s : State) (x : Nibble) (k : Option Nibble) : KeepsHost s (s.takeKey x k) := by
  cases k <;> exact ⟨rfl, rfl, rfl, rfl, rfl⟩

theorem keepsHost_setMem_writeList (s : State) (a : Nat) (bs : List Byte) :
    KeepsHost s (s.setMem (s.mem.writeList a bs)).advance :=
  ⟨rfl, rfl, rfl, rfl, Memory.writeList_font s.mem a bs⟩

/-- Everything an instruction can answer: a next state, which leaves the latch and what stands for the host as they were;
a fault; or, for RET where `SP` is past the stack, the one refusal. -/
theorem exec_cases (i : Instr) (s : State) :
    (∃ t, exec i s = .next t ∧ KeepsHost s t) ∨ (∃ f, exec i s = .fault f) ∨
    (∃ m, i = .ret m ∧ 16 < s.sp.toNat ∧ exec i s = .refused (.stackEntryMissing s.sp)) := by
  cases i with
  | ret m =>
    rcases execRet_cases m s with ⟨_, e⟩ | ⟨ra, _, _, _, e⟩ | ⟨_, hsp, e⟩
    · exact .inr (.inl ⟨_, e⟩)
    · exact .inl ⟨_, e, rfl, rfl, rfl, rfl, rfl⟩
    · exact .inr (.inr ⟨m, rfl, hsp, e⟩)
  | callAddr addr =>
    rcases execCallAddr_cases addr s with ⟨_, e⟩ | ⟨_, e⟩
    · exact .inr (.inl ⟨_, e⟩)
    · exact .inl ⟨_, e, rfl, rfl, rfl, rfl, rfl⟩
  | drw x y n =>
    rcases execDrw_cases x y n s with ⟨_, e⟩ | ⟨_, _, e⟩
    · exact .inl ⟨_, e, rfl, rfl, rfl, rfl, rfl⟩
    · exact .inr (.inl ⟨_, e⟩)
  | skp x =>
    rcases execSkp_cases x s with ⟨_, e⟩ | ⟨_, _, e⟩
    · exact .inr (.inl ⟨_, e⟩)
    · exact .inl ⟨_, e, rfl, rfl, rfl, rfl, rfl⟩
  | sknp x =>
    rcases execSknp_cases x s with ⟨_, e⟩ | ⟨_, _, e⟩
    · exact .inr (.inl ⟨_, e⟩)
    · exact .inl ⟨_, e, rfl, rfl, rfl, rfl, rfl⟩
  | ldVxK x => exact .inl ⟨_, rfl, keepsHost_takeKey s x s.keyAny⟩
  | ldB x =>
    rcases execLdB_cases x s with ⟨_, e⟩ | ⟨_, _, e⟩
    · exact .inl ⟨_, e, keepsHost_setMem_writeList s _ _⟩
    · exact .inr (.inl ⟨_, e⟩)
  | storeRegs x =>
    rcases execStoreRegs_cases x s with ⟨_, e⟩ | ⟨_, _, e⟩
    · exact .inl ⟨_, e, keepsHost_setMem_writeList s _ _⟩
    · exact .inr (.inl ⟨_, e⟩)
  | loadRegs x =>
    rcases execLoadRegs_cases x s with ⟨_, e⟩ | ⟨_, _, e⟩
    · exact .inl ⟨_, e, rfl, rfl, rfl, rfl, rfl⟩
    · exact .inr (.inl ⟨_, e⟩)
  | cls | jpAddr | seImm | sneImm | seReg | ldImm | addImm | ldReg | orReg | andReg | xorReg | addReg | subReg | shr
  | subnReg | shl | sneReg | ldI | jpV0 | rnd | ldVxDt | ldDtVx | ldStVx | addI | ldF =>
    exact .inl ⟨_, rfl, rfl, rfl, rfl, rfl, rfl⟩

/-- A completed instruction leaves the latch and what stands for the host as they were. -/
theorem exec_keepsHost {i : Instr} {s t : State} (h : exec i s = .next t) : KeepsHost s t := by
  rcases exec_cases i s with ⟨u, e, hu⟩ | ⟨f, e⟩ | ⟨m, _, _, e⟩ <;> cases e.symm.trans h
  exact hu

/-- A refusal comes from RET alone, where `SP` is past the stack (entry 4). -/
theorem exec_refused {i : Instr} {s : State} {r : Refusal} (h : exec i s = .refused r) :
    (∃ m, i = .ret m) ∧ 16 < s.sp.toNat ∧ r = .stackEntryMissing s.sp := by
  rcases exec_cases i s with ⟨u, e, _⟩ | ⟨f, e⟩ | ⟨m, hi, hsp, e⟩ <;> cases e.symm.trans h
  exact ⟨⟨m, hi⟩, hsp, rfl⟩

/-- Fetch and decoder do not refuse, so a refused `TICK` has the instruction's cause. -/
theorem tick_refused {s : State} {r : Refusal} (h : tick s = .refused r) : 16 < s.sp.toNat := by
  rcases tick_cases s with ⟨f, _, e⟩ | ⟨op, d, _, _, e⟩ | ⟨op, i, _, _, e⟩
  · cases e.symm.trans h
  · cases e.symm.trans h
  · obtain ⟨_, hpast, _⟩ := exec_refused (e.symm.trans h)
    exact hpast

theorem step_refused {s : State} {r : Refusal} (h : step s = .refused r) : 16 < s.sp.toNat := by
  unfold step at h
  split at h
  · cases h
  · split at h
    · cases h
    · cases h
    · next htick => exact tick_refused htick

/-! ### A step as events (00_scope R6) -/

theorem inputs_of_keepsHost {s t : State} (h : KeepsHost s t) : t.inputs = s.inputs := by
  obtain ⟨_, hno, hscript, _, _⟩ := h
  unfold State.inputs
  rw [hno, hscript]

theorem countDownBy_zero (t : Byte) : countDownBy 0 t = t :=
  BitVec.eq_of_toNat_eq (toNat_countDownBy 0 t)

theorem countDownBy_succ (k : Nat) (t : Byte) : countDownBy (k + 1) t = countDownBy k (countDown t) := by
  apply BitVec.eq_of_toNat_eq
  rw [toNat_countDownBy, toNat_countDownBy, toNat_countDown]
  omega

theorem frames_zero (s : State) : s.frames 0 = s := by
  simp only [State.frames, countDownBy_zero]
  exact ite_self s

/-- The first of `k + 1` `FRAME`s, then the other `k`. -/
theorem frames_succ (s : State) (k : Nat) : s.frames (k + 1) = s.frame.frames k := by
  unfold State.frames State.frame
  cases h : s.halted.isSome
  · simp only [Bool.false_eq_true, if_false, State.setSt_halted, State.setDt_halted, State.setSt_dt, State.setDt_dt,
      State.setSt_st, h, countDownBy_succ]
    rfl
  · simp [h]

/-- The inputs move on before or after the `FRAME`s, to the same state. -/
theorem moveOn_frames (s : State) (k : Nat) : s.moveOn.frames k = (s.frames k).moveOn := by
  unfold State.frames
  rw [State.moveOn_halted]
  split <;> rfl

theorem applyEvents_cons {s t : State} {e : HostEvent} (h : applyEvent s e = some t) (es : List HostEvent) :
    applyEvents s (e :: es) = applyEvents t es := by
  rw [applyEvents, h]

theorem applyEvents_frames (k : Nat) (s : State) : applyEvents s (List.replicate k .frame) = some (s.frames k) := by
  induction k generalizing s with
  | zero => rw [frames_zero]; rfl
  | succ k ih => rw [frames_succ, List.replicate_succ, applyEvents_cons rfl, ih]

theorem tickEvent_of_exec {s u : State} {op : Word} {i : Instr} (hrun : s.halted.isSome = false) (hf : s.fetch = .ok op)
    (hd : decodeWord op = .ok i) (hx : exec i s = .next u) : tickEvent s = some u.moveOn := by
  simp [tickEvent, tick, hrun, hf, hd, hx]

/-! ### Who reads the inputs (00_scope R7, 30_encoding R84) -/

/-- The same state before other inputs. -/
def State.withInputs (s : State) (n : Nat) (sc : List Inputs) : State := { s with tickNo := n, script := sc }

/-- An outcome with its next state changed, if it has one. -/
def mapNext (g : State → State) : Host.Outcome State Fault Refusal → Host.Outcome State Fault Refusal
  | .next t => .next (g t)
  | .fault f => .fault f
  | .refused r => .refused r

variable (s : State) (n : Nat) (sc : List Inputs)

@[simp] theorem withInputs_sp : (s.withInputs n sc).sp = s.sp := rfl
@[simp] theorem withInputs_base : (s.withInputs n sc).base = s.base := rfl
@[simp] theorem withInputs_getV (x : Nibble) : (s.withInputs n sc).getV x = s.getV x := rfl
@[simp] theorem withInputs_regsUpTo (x : Nibble) : (s.withInputs n sc).regsUpTo x = s.regsUpTo x := rfl
@[simp] theorem withInputs_stackEntry (k : Nat) : (s.withInputs n sc).stackEntry k = s.stackEntry k := rfl
@[simp] theorem withInputs_readBytes (a k : Nat) : (s.withInputs n sc).readBytes a k = s.readBytes a k := rfl

/-- The bytes written do not depend on the inputs, and the inputs go on with the state written. -/
theorem withInputs_writeBytes (a : Nat) (bs : List Byte) :
    (s.withInputs n sc).writeBytes a bs = (s.writeBytes a bs).map (·.withInputs n sc) := by
  unfold State.writeBytes
  cases firstOutOfRange a bs.length <;> rfl

theorem execRet_withInputs (m : Nibble) : execRet m (s.withInputs n sc) = mapNext (·.withInputs n sc) (execRet m s) := by
  by_cases h : s.sp = 0 <;> simp only [execRet, withInputs_sp, withInputs_stackEntry, h, if_true, if_false]
  · rfl
  · cases s.stackEntry (s.sp.toNat - 1) <;> rfl

theorem execCallAddr_withInputs (addr : Addr) :
    execCallAddr addr (s.withInputs n sc) = mapNext (·.withInputs n sc) (execCallAddr addr s) := by
  by_cases h : s.sp.toNat ≥ Config.spMax <;> simp only [execCallAddr, withInputs_sp, h, if_true, if_false] <;> rfl

theorem execDrw_withInputs (x y k : Nibble) :
    execDrw x y k (s.withInputs n sc) = mapNext (·.withInputs n sc) (execDrw x y k s) := by
  simp only [execDrw, withInputs_readBytes, withInputs_base]
  cases s.readBytes s.base k.toNat <;> rfl

theorem execLdB_withInputs (x : Nibble) : execLdB x (s.withInputs n sc) = mapNext (·.withInputs n sc) (execLdB x s) := by
  simp only [execLdB, withInputs_writeBytes, withInputs_base, withInputs_getV]
  cases s.writeBytes s.base (bcdDigits (s.getV x)) <;> rfl

theorem execStoreRegs_withInputs (x : Nibble) :
    execStoreRegs x (s.withInputs n sc) = mapNext (·.withInputs n sc) (execStoreRegs x s) := by
  simp only [execStoreRegs, withInputs_writeBytes, withInputs_base, withInputs_regsUpTo]
  cases s.writeBytes s.base (s.regsUpTo x) <;> rfl

theorem execLoadRegs_withInputs (x : Nibble) :
    execLoadRegs x (s.withInputs n sc) = mapNext (·.withInputs n sc) (execLoadRegs x s) := by
  simp only [execLoadRegs, withInputs_readBytes, withInputs_base]
  cases s.readBytes s.base (x.toNat + 1) <;> rfl

/-- An instruction that is none of the four readers of the inputs commutes with a change of them. -/
theorem exec_withInputs (i : Instr) (hrnd : ∀ x kk, i ≠ .rnd x kk) (hkey : ∀ x, i ≠ .skp x ∧ i ≠ .sknp x ∧ i ≠ .ldVxK x) :
    exec i (s.withInputs n sc) = mapNext (·.withInputs n sc) (exec i s) := by
  cases i with
  | rnd x kk => exact absurd rfl (hrnd x kk)
  | skp x => exact absurd rfl (hkey x).1
  | sknp x => exact absurd rfl (hkey x).2.1
  | ldVxK x => exact absurd rfl (hkey x).2.2
  | ret m => exact execRet_withInputs s n sc m
  | callAddr addr => exact execCallAddr_withInputs s n sc addr
  | drw x y k => exact execDrw_withInputs s n sc x y k
  | ldB x => exact execLdB_withInputs s n sc x
  | storeRegs x => exact execStoreRegs_withInputs s n sc x
  | loadRegs x => exact execLoadRegs_withInputs s n sc x
  | cls | jpAddr | seImm | sneImm | seReg | ldImm | addImm | ldReg | orReg | andReg | xorReg | addReg | subReg | shr
  | subnReg | shl | sneReg | ldI | jpV0 | ldVxDt | ldDtVx | ldStVx | addI | ldF => rfl

end Sys2Proof.Machine

namespace Sys2Proof

open Sys2Proof.Machine

/-- Settles O33: the choice itself is the one that makes `KeyAny` name a given down key. -/
theorem keyInputsAreConsistent : Obligations.KeyInputsAreConsistent := by
  unfold Obligations.KeyInputsAreConsistent
  constructor
  · intro s
    exact ⟨keyAny_eq_none, fun _ h => keyDown_of_keyAny h⟩
  · intro s i k hk
    exact ⟨k, keyAny_of_choice_down hk⟩

/-- Settles O41: the invariant rules out the one refusal, a RET with `SP` past the stack. -/
theorem stepCompletesOrFaults : Obligations.StepCompletesOrFaults := by
  unfold Obligations.StepCompletesOrFaults
  rintro s ⟨hsp, _⟩
  cases h : step s with
  | next t => exact .inl ⟨t, rfl⟩
  | fault f => exact .inr ⟨f, rfl⟩
  | refused r =>
    have hpast : 16 < s.sp.toNat := step_refused h
    unfold Config.spMax at hsp
    omega

/-- Settles O45: the instruction keeps the inputs, so the step counts the `FRAME`s of the state it began in, and they
commute with the inputs' moving on. -/
theorem stepIsATickThenFrames : Obligations.StepIsATickThenFrames := by
  unfold Obligations.StepIsATickThenFrames
  intro s t hrun h
  rcases step_next h with ⟨hhalt, _⟩ | ⟨hnot, op, i, u, hf, hd, hx, rfl⟩
  · rw [hrun] at hhalt; cases hhalt
  · have htick : applyEvent s .tick = some u.moveOn := tickEvent_of_exec hnot hf hd hx
    have hinputs : u.inputs = s.inputs := inputs_of_keepsHost (exec_keepsHost hx)
    rw [applyEvents_cons htick, applyEvents_frames, moveOn_frames, State.endTick, hinputs]

/-- Settles O54: such an instruction commutes with a change of the inputs, whatever it answers. -/
theorem onlyFourInstructionsReadInputs : Obligations.OnlyFourInstructionsReadInputs := by
  unfold Obligations.OnlyFourInstructionsReadInputs
  intro i s n sc hrnd hkey
  have hcomm := exec_withInputs s n sc i hrnd hkey
  exact ⟨fun _ h => hcomm.trans (congrArg (mapNext _) h), fun _ h => hcomm.trans (congrArg (mapNext _) h),
    fun _ h => hcomm.trans (congrArg (mapNext _) h)⟩

end Sys2Proof

/-! ## The state (10_state): what a completed instruction writes, the invariant, the values `RESET` leaves -/

namespace Sys2Proof.Machine

/-! ### The instructions that may not complete: what they leave when they do -/

section

variable {s t : State}

theorem execRet_next {m : Nibble} (h : execRet m s = .next t) :
    ∃ ra, s.sp ≠ 0 ∧ s.sp.toNat ≤ 16 ∧ s.stackEntry (s.sp.toNat - 1) = some ra ∧
      t = (s.setSp (s.sp - 1)).setPc (ra + 2) := by
  rcases execRet_cases m s with ⟨_, e⟩ | ⟨ra, hpos, hle, hra, e⟩ | ⟨_, _, e⟩ <;> cases e.symm.trans h
  exact ⟨ra, hpos, hle, hra, rfl⟩

theorem execCallAddr_next {addr : Addr} (h : execCallAddr addr s = .next t) :
    s.sp.toNat < 15 ∧ t = (s.push s.pc).jump addr := by
  rcases execCallAddr_cases addr s with ⟨_, e⟩ | ⟨hlt, e⟩ <;> cases e.symm.trans h
  exact ⟨hlt, rfl⟩

theorem execLdB_next {x : Nibble} (h : execLdB x s = .next t) :
    firstOutOfRange s.base 3 = none ∧ t = (s.setMem (s.mem.writeList s.base (bcdDigits (s.getV x)))).advance := by
  rcases execLdB_cases x s with ⟨hin, e⟩ | ⟨_, _, e⟩ <;> cases e.symm.trans h
  exact ⟨hin, rfl⟩

theorem execStoreRegs_next {x : Nibble} (h : execStoreRegs x s = .next t) :
    firstOutOfRange s.base (x.toNat + 1) = none ∧ t = (s.setMem (s.mem.writeList s.base (s.regsUpTo x))).advance := by
  rcases execStoreRegs_cases x s with ⟨hin, e⟩ | ⟨_, _, e⟩ <;> cases e.symm.trans h
  exact ⟨hin, rfl⟩

theorem execLoadRegs_next {x : Nibble} (h : execLoadRegs x s = .next t) :
    t = (s.setRegs (loadFrom s.v 0 (s.mem.readList s.base (x.toNat + 1)))).advance := by
  rcases execLoadRegs_cases x s with ⟨_, e⟩ | ⟨_, _, e⟩ <;> cases e.symm.trans h
  rfl

theorem execDrw_next {x y n : Nibble} (h : execDrw x y n s = .next t) :
    t = s.drawn x y (s.mem.readList s.base n.toNat) := by
  rcases execDrw_cases x y n s with ⟨_, e⟩ | ⟨_, _, e⟩ <;> cases e.symm.trans h
  rfl

theorem execSkp_next {x : Nibble} (h : execSkp x s = .next t) :
    t = s.skipIf (s.inputs.keys.getLsbD (s.getV x).toNat) := by
  rcases execSkp_cases x s with ⟨_, e⟩ | ⟨k, hk, e⟩ <;> cases e.symm.trans h
  rw [← hk]; rfl

theorem execSknp_next {x : Nibble} (h : execSknp x s = .next t) :
    t = s.skipIf (!s.inputs.keys.getLsbD (s.getV x).toNat) := by
  rcases execSknp_cases x s with ⟨_, e⟩ | ⟨k, hk, e⟩ <;> cases e.symm.trans h
  rw [← hk]; rfl

end

/-! ### What a completed instruction writes -/

/-- The instruction writes its result, and no flag, to the register `x` that it names (10_state R22). -/
def NamesDestination (i : Instr) (x : Nibble) : Prop :=
  (∃ y kk, i = .ldImm x kk ∨ i = .addImm x kk ∨ i = .rnd x kk ∨ i = .ldReg x y ∨ i = .orReg x y ∨
    i = .andReg x y ∨ i = .xorReg x y) ∨
  i = .ldVxDt x ∨ i = .ldVxK x

/-- The next states of the completed instructions, by the part of the state that is written. `exec_writes` ties it to
`exec`; who changes what, and what no instruction changes, is read off its cases. -/
inductive Writes (s : State) : Instr → State → Prop where
  | pc (i : Instr) (w : Word) : Writes s i (s.setPc w)
  | result {i : Instr} {x : Nibble} (b : Byte) (hi : NamesDestination i x) : Writes s i (s.result x b)
  | resultFlag {i : Instr} {x y : Nibble} (b : Byte) (c : Bool)
      (hi : i = .addReg x y ∨ i = .subReg x y ∨ i = .subnReg x y ∨ i = .shr x y ∨ i = .shl x y) :
      Writes s i (s.resultFlag x b c)
  | load (x : Nibble) : Writes s (.loadRegs x) (s.setRegs (loadFrom s.v 0 (s.mem.readList s.base (x.toNat + 1)))).advance
  | clear (m : Nibble) : Writes s (.cls m) (s.setDisplay Display.clear).advance
  | draw (x y n : Nibble) : Writes s (.drw x y n) (s.drawn x y (s.mem.readList s.base n.toNat))
  | index {i : Instr} (w : Word) (hi : (∃ a, i = .ldI a) ∨ (∃ x, i = .addI x) ∨ ∃ x, i = .ldF x) :
      Writes s i (s.setIdx w).advance
  | pop (m : Nibble) (ra : Word) (hpos : s.sp ≠ 0) (hle : s.sp.toNat ≤ 16) :
      Writes s (.ret m) ((s.setSp (s.sp - 1)).setPc (ra + 2))
  | push (addr : Addr) (hlt : s.sp.toNat < 15) : Writes s (.callAddr addr) ((s.push s.pc).jump addr)
  | delay (x : Nibble) : Writes s (.ldDtVx x) (s.setDt (s.getV x)).advance
  | sound (x : Nibble) : Writes s (.ldStVx x) (s.setSt (s.getV x)).advance
  | digits (x : Nibble) (hin : firstOutOfRange s.base 3 = none) :
      Writes s (.ldB x) (s.setMem (s.mem.writeList s.base (bcdDigits (s.getV x)))).advance
  | store (x : Nibble) (hin : firstOutOfRange s.base (x.toNat + 1) = none) :
      Writes s (.storeRegs x) (s.setMem (s.mem.writeList s.base (s.regsUpTo x))).advance

/-- LD Vx, K stores the key, or leaves even `PC` as it is (44_keys_timers R184). -/
theorem writes_takeKey (s : State) (x : Nibble) (k : Option Nibble) : Writes s (.ldVxK x) (s.takeKey x k) := by
  cases k with
  | none => exact .pc _ s.pc
  | some k => exact .result (k.setWidth 8) (.inr (.inr rfl))

/-- Every completed instruction is one of the cases of `Writes`. -/
theorem exec_writes {i : Instr} {s t : State} (h : exec i s = .next t) : Writes s i t := by
  cases i with
  | ret m =>
    obtain ⟨ra, hpos, hle, _, rfl⟩ := execRet_next h
    exact .pop m ra hpos hle
  | callAddr addr =>
    obtain ⟨hlt, rfl⟩ := execCallAddr_next h
    exact .push addr hlt
  | ldB x =>
    obtain ⟨hin, rfl⟩ := execLdB_next h
    exact .digits x hin
  | storeRegs x =>
    obtain ⟨hin, rfl⟩ := execStoreRegs_next h
    exact .store x hin
  | loadRegs x => cases execLoadRegs_next h; exact .load x
  | drw x y n => cases execDrw_next h; exact .draw x y n
  | skp x => cases execSkp_next h; exact .pc _ _
  | sknp x => cases execSknp_next h; exact .pc _ _
  | jpAddr | seImm | sneImm | seReg | sneReg | jpV0 => cases h; exact .pc _ _
  | ldVxK x => cases h; exact writes_takeKey s x s.keyAny
  | ldVxDt x => cases h; exact .result s.dt (.inr (.inl rfl))
  | ldImm x kk | addImm x kk | rnd x kk => cases h; exact .result _ (.inl ⟨0, kk, by simp⟩)
  | ldReg x y | orReg x y | andReg x y | xorReg x y => cases h; exact .result _ (.inl ⟨y, 0, by simp⟩)
  | addReg x y | subReg x y | subnReg x y | shr x y | shl x y => cases h; exact .resultFlag (y := y) _ _ (by simp)
  | cls m => cases h; exact .clear m
  | ldI a => cases h; exact .index _ (.inl ⟨a, rfl⟩)
  | addI x => cases h; exact .index _ (.inr (.inl ⟨x, rfl⟩))
  | ldF x => cases h; exact .index _ (.inr (.inr ⟨x, rfl⟩))
  | ldDtVx x => cases h; exact .delay x
  | ldStVx x => cases h; exact .sound x

/-! ### The invariant (R27) -/

/-- The invariant is about `SP` and memory only. -/
theorem inv_congr {s t : State} (hsp : t.sp = s.sp) (hmem : t.mem = s.mem) (h : s.Inv) : t.Inv := by
  unfold State.Inv
  rw [hsp, hmem]
  exact h

/-- Bytes written in range keep memory in canonical form. -/
theorem inv_setMem_writeList {s : State} {bs : List Byte} (h : s.Inv)
    (hin : firstOutOfRange s.base bs.length = none) : (s.setMem (s.mem.writeList s.base bs)).Inv := by
  obtain ⟨hsp, hmem⟩ := h
  refine ⟨hsp, ?_⟩
  rcases firstOutOfRange_eq_none.mp hin with hnil | hle
  · rw [List.eq_nil_of_length_eq_zero hnil]; exact hmem
  · exact Memory.wf_writeList hmem hle

theorem exec_inv {i : Instr} {s t : State} (h : exec i s = .next t) (hs : s.Inv) : t.Inv := by
  cases exec_writes h with
  | pop m ra hpos =>
    obtain ⟨hsp, hmem⟩ := hs
    refine ⟨?_, hmem⟩
    simp only [State.setPc_sp, State.setSp_sp, Config.spMax] at hsp ⊢
    bv_omega
  | push addr hlt =>
    obtain ⟨_, hmem⟩ := hs
    refine ⟨?_, hmem⟩
    simp only [jump_sp, push_sp, Config.spMax]
    bv_omega
  | digits x hin => exact inv_congr rfl rfl (inv_setMem_writeList (bs := bcdDigits (s.getV x)) hs hin)
  | store x hin =>
    exact inv_congr rfl rfl (inv_setMem_writeList (bs := s.regsUpTo x) hs (by rwa [length_regsUpTo]))
  | _ => exact inv_congr rfl rfl hs

/-- What follows a `TICK` is about the timers and the inputs. -/
theorem endTick_inv {s : State} (h : s.Inv) : s.endTick.Inv := by
  unfold State.endTick
  rcases frames_cases s s.inputs.frames with ⟨_, e⟩ | ⟨_, e⟩ <;> rw [e] <;> exact inv_congr rfl rfl h

theorem step_inv {s t : State} (h : step s = .next t) (hs : s.Inv) : t.Inv := by
  rcases step_next h with ⟨_, rfl⟩ | ⟨_, op, i, u, _, _, hx, rfl⟩
  · exact hs
  · exact endTick_inv (exec_inv hx hs)

theorem resetWith_inv (font : Vector Byte Config.fontSize) : (State.resetWith font).Inv :=
  ⟨Nat.zero_le _, resetWith_mem_wf font⟩

/-! ### Who writes what (10_state R22, R23, R27 to R32) -/

section

variable {i : Instr} {s t : State}

/-- A byte that reads differently after writes is one of those written. -/
theorem mem_range_of_read_writeList_ne {m : Memory} {a b : Nat} {bs : List Byte}
    (h : (m.writeList a bs).read b ≠ m.read b) : a ≤ b ∧ b < a + bs.length := by
  by_contra hout
  exact h (Memory.read_writeList_outside bs m a b (by omega))

theorem exec_mem_writers {a : Nat} (h : exec i s = .next t) (hne : t.mem.read a ≠ s.mem.read a) :
    s.idx.toNat ≤ a ∧
      ((∃ x, i = .ldB x) ∧ a ≤ s.idx.toNat + 2 ∨ ∃ x : Nibble, i = .storeRegs x ∧ a ≤ s.idx.toNat + x.toNat) := by
  cases exec_writes h with
  | digits x =>
    obtain ⟨hlo, hhi⟩ := mem_range_of_read_writeList_ne hne
    rw [length_bcdDigits] at hhi
    exact ⟨hlo, .inl ⟨⟨x, rfl⟩, Nat.le_of_lt_succ hhi⟩⟩
  | store x =>
    obtain ⟨hlo, hhi⟩ := mem_range_of_read_writeList_ne hne
    rw [length_regsUpTo] at hhi
    exact ⟨hlo, .inr ⟨x, rfl, Nat.le_of_lt_succ hhi⟩⟩
  | _ => exact absurd rfl hne

theorem exec_display_writers (h : exec i s = .next t) (hne : t.display ≠ s.display) :
    (∃ m, i = .cls m) ∨ ∃ x y n, i = .drw x y n := by
  cases exec_writes h with
  | clear m => exact .inl ⟨m, rfl⟩
  | draw x y n => exact .inr ⟨x, y, n, rfl⟩
  | _ => exact absurd rfl hne

theorem exec_idx_writers (h : exec i s = .next t) (hne : t.idx ≠ s.idx) :
    (∃ a, i = .ldI a) ∨ (∃ x, i = .addI x) ∨ ∃ x, i = .ldF x := by
  cases exec_writes h with
  | index w hi => exact hi
  | _ => exact absurd rfl hne

theorem exec_sp_writers (h : exec i s = .next t) (hne : t.sp ≠ s.sp) : (∃ a, i = .callAddr a) ∨ ∃ m, i = .ret m := by
  cases exec_writes h with
  | push addr => exact .inl ⟨addr, rfl⟩
  | pop m => exact .inr ⟨m, rfl⟩
  | _ => exact absurd rfl hne

/-- A push writes `Stack[SP]` and no other entry. -/
theorem eq_sp_of_stackEntry_push_ne {w : Word} {k : Nat} (hne : (s.push w).stackEntry k ≠ s.stackEntry k) :
    k = s.sp.toNat := by
  rw [stackEntry_push] at hne
  by_contra hk
  exact hne (if_neg fun hsp => hk hsp.1)

theorem exec_stackEntry_writers {k : Nat} (h : exec i s = .next t) (hne : t.stackEntry k ≠ s.stackEntry k) :
    k = s.sp.toNat ∧ ∃ a, i = .callAddr a := by
  cases exec_writes h with
  | push addr => exact ⟨eq_sp_of_stackEntry_push_ne hne, addr, rfl⟩
  | _ => exact absurd rfl hne

theorem exec_dt_writers (h : exec i s = .next t) (hne : t.dt ≠ s.dt) : ∃ x, i = .ldDtVx x := by
  cases exec_writes h with
  | delay x => exact ⟨x, rfl⟩
  | _ => exact absurd rfl hne

theorem exec_st_writers (h : exec i s = .next t) (hne : t.st ≠ s.st) : ∃ x, i = .ldStVx x := by
  cases exec_writes h with
  | sound x => exact ⟨x, rfl⟩
  | _ => exact absurd rfl hne

theorem eq_of_getV_result_ne {x r : Nibble} {b : Byte} (hne : (s.result x b).getV r ≠ s.getV r) : r = x := by
  rw [getV_result] at hne
  by_contra hr
  exact hne (if_neg hr)

/-- The load of `V[0]`, ..., `V[x]` leaves the registers above `x`. -/
theorem getV_setRegs_loadFrom_readList {x r : Nibble} {a : Nat} (h : x.toNat < r.toNat) :
    (s.setRegs (loadFrom s.v 0 (s.mem.readList a (x.toNat + 1)))).getV r = s.getV r := by
  have hout : ¬ r.toNat < x.toNat + 1 := by omega
  simp [State.getV, getElem_loadFrom, hout]

/-- The load writes `VF` where it loads all sixteen registers only. -/
theorem eq_F_of_getV_load_ne {x : Nibble} {a : Nat}
    (hne : (s.setRegs (loadFrom s.v 0 (s.mem.readList a (x.toNat + 1)))).getV 0xF ≠ s.getV 0xF) : x = 0xF := by
  by_contra hx
  have hlt : x.toNat < (0xF : Nibble).toNat := by bv_omega
  exact hne (getV_setRegs_loadFrom_readList hlt)

theorem exec_flag_writers (h : exec i s = .next t) (hne : t.getV 0xF ≠ s.getV 0xF) :
    (∃ x y, i = .addReg x y ∨ i = .subReg x y ∨ i = .subnReg x y ∨ i = .shr x y ∨ i = .shl x y) ∨
    (∃ x y n, i = .drw x y n) ∨ NamesDestination i 0xF ∨ i = .loadRegs 0xF := by
  cases exec_writes h with
  | resultFlag b c hi => exact .inl ⟨_, _, hi⟩
  | draw x y n => exact .inr (.inl ⟨x, y, n, rfl⟩)
  | result b hi =>
    cases eq_of_getV_result_ne hne
    exact .inr (.inr (.inl hi))
  | load x =>
    cases eq_F_of_getV_load_ne hne
    exact .inr (.inr (.inr rfl))
  | _ => exact absurd rfl hne

end

/-! ### The final `PC` (R25) -/

theorem advances_of_pc {s t : State} (h : t.pc = s.pc + 2) : Advances s t := by
  unfold Advances
  rw [h]
  exact BitVec.toNat_add _ _

/-- A byte and an address have a sum of 16 bits, so JP V0 needs no reduction (40_control_flow R108). -/
theorem toNat_add_setWidth_16 (b : Byte) (addr : Addr) :
    (b.setWidth 16 + addr.setWidth 16).toNat = b.toNat + addr.toNat := by
  bv_omega

theorem skips_skipIf {P : Prop} (s : State) {c : Bool} (hc : c = true ↔ P) : Skips P s (s.skipIf c) := by
  constructor
  · intro hP
    simp only [skipIf_pc, hc.mpr hP, if_true]
    exact BitVec.toNat_add _ _
  · intro hP
    have hfalse : c = false := Bool.eq_false_iff.mpr fun e => hP (hc.mp e)
    simp only [skipIf_pc, hfalse, Bool.false_eq_true, if_false]
    exact BitVec.toNat_add _ _

/-- LD Vx, K waits at its own address, or stores the key and advances (44_keys_timers R184). -/
theorem takeKey_finalPc (s : State) (x : Nibble) (k : Option Nibble) :
    (k = none → (s.takeKey x k).pc = s.pc) ∧ (k ≠ none → Advances s (s.takeKey x k)) := by
  cases k with
  | none => exact ⟨fun _ => rfl, fun hne => absurd rfl hne⟩
  | some k => exact ⟨nofun, fun _ => advances_of_pc rfl⟩

/-! ### The values `RESET` leaves (R37) -/

/-- `RESET` on a machine with this `FONT` leaves its reset state, before whatever inputs come next. -/
theorem exists_inputs_of_reset {font : Vector Byte 80} {s u : State}
    (h : u = State.resetWith font ∨ (u = resetEvent s ∧ s.mem.font = font)) :
    ∃ n sc, u = (State.resetWith font).withInputs n sc := by
  rcases h with rfl | ⟨rfl, rfl⟩
  · exact ⟨0, [], rfl⟩
  · exact ⟨s.tickNo, s.script, rfl⟩

theorem resetWith_getV (font : Vector Byte 80) (x : Nibble) : (State.resetWith font).getV x = 0 := by
  simp [State.getV, State.resetWith]

theorem resetWith_stackEntry (font : Vector Byte 80) {k : Nat} (h : k < 16) :
    (State.resetWith font).stackEntry k = some 0 := by
  simp [State.stackEntry, State.resetWith, h]

end Sys2Proof.Machine

namespace Sys2Proof

open Sys2Proof.Machine

/-- Settles O48: `SP` is written by CALL below 15 and by RET above 0, memory by writes in range only; what follows the
instruction in a step writes neither. -/
theorem everyStepKeepsTheInvariant : Obligations.EveryStepKeepsTheInvariant := by
  unfold Obligations.EveryStepKeepsTheInvariant
  exact fun _ _ hs h => step_inv h hs

/-- Settles O42: RET has three answers, told apart by `SP`, and no other instruction refuses. -/
theorem onlyRetRefusesAndOnlyPastTheStack : Obligations.OnlyRetRefusesAndOnlyPastTheStack := by
  unfold Obligations.OnlyRetRefusesAndOnlyPastTheStack
  intro i s r
  constructor
  · exact exec_refused
  · rintro ⟨⟨m, rfl⟩, hpast, rfl⟩
    rcases execRet_cases m s with ⟨hzero, _⟩ | ⟨_, _, hle, _⟩ | ⟨_, _, e⟩
    · simp [hzero] at hpast
    · omega
    · exact e

/-- Settles O49: a byte that reads differently is one of the three digits or of the `x + 1` registers stored. -/
theorem onlyTwoInstructionsWriteMemory : Obligations.OnlyTwoInstructionsWriteMemory := by
  unfold Obligations.OnlyTwoInstructionsWriteMemory
  exact fun _ _ _ _ => exec_mem_writers

/-- Settles O50, from the cases of `Writes`. -/
theorem onlyClsAndDrwChangeTheDisplay : Obligations.OnlyClsAndDrwChangeTheDisplay := by
  unfold Obligations.OnlyClsAndDrwChangeTheDisplay
  exact fun _ _ _ => exec_display_writers

/-- Settles O51, register by register. -/
theorem specialRegistersHaveTheirWriters : Obligations.SpecialRegistersHaveTheirWriters := by
  unfold Obligations.SpecialRegistersHaveTheirWriters
  intro i s t h
  exact ⟨exec_idx_writers h, exec_sp_writers h, fun _ => exec_stackEntry_writers h, exec_dt_writers h,
    exec_st_writers h, exec_keepsHost h⟩

/-- Settles O52: a result without a flag reaches `VF` where it is the destination, the load where it is the last register. -/
theorem onlySixInstructionsWriteTheFlag : Obligations.OnlySixInstructionsWriteTheFlag := by
  unfold Obligations.OnlySixInstructionsWriteTheFlag
  intro i s t h hne
  rcases exec_flag_writers h hne with hsix | hdrw | (hdest | hdelay | hkey) | hload
  · exact .inl hsix
  · exact .inr (.inl hdrw)
  · exact .inr (.inr (.inl hdest))
  · exact .inr (.inr (.inr (.inl hdelay)))
  · exact .inr (.inr (.inr (.inr (.inl hkey))))
  · exact .inr (.inr (.inr (.inr (.inr hload))))

/-- Settles O53, instruction by instruction: the jumps, the skips, the wait for a key, and the generic advance. -/
theorem everyInstructionHasItsFinalPc : Obligations.EveryInstructionHasItsFinalPc := by
  unfold Obligations.EveryInstructionHasItsFinalPc
  intro i s t h
  cases i with
  | ret m =>
    obtain ⟨ra, _, _, hra, rfl⟩ := execRet_next h
    exact ⟨ra, hra, BitVec.toNat_add _ _⟩
  | jpAddr addr => cases h; exact BitVec.toNat_setWidth_of_le (by decide)
  | callAddr addr =>
    obtain ⟨_, rfl⟩ := execCallAddr_next h
    exact BitVec.toNat_setWidth_of_le (by decide)
  | jpV0 addr =>
    cases h
    exact toNat_add_setWidth_16 (s.getV 0) addr
  | seImm x kk => cases h; exact skips_skipIf s beq_iff_eq
  | sneImm x kk => cases h; exact skips_skipIf s bne_iff_ne
  | seReg x y m => cases h; exact skips_skipIf s beq_iff_eq
  | sneReg x y m => cases h; exact skips_skipIf s bne_iff_ne
  | skp x => cases execSkp_next h; exact skips_skipIf s Iff.rfl
  | sknp x => cases execSknp_next h; exact skips_skipIf s (by rw [Bool.not_eq_true'])
  | ldVxK x => cases h; exact takeKey_finalPc s x s.keyAny
  | drw x y n => cases execDrw_next h; exact advances_of_pc rfl
  | loadRegs x => cases execLoadRegs_next h; exact advances_of_pc rfl
  | ldB x =>
    obtain ⟨_, rfl⟩ := execLdB_next h
    exact advances_of_pc rfl
  | storeRegs x =>
    obtain ⟨_, rfl⟩ := execStoreRegs_next h
    exact advances_of_pc rfl
  | cls | ldImm | addImm | ldReg | orReg | andReg | xorReg | addReg | subReg | shr | subnReg | shl | ldI | rnd | ldVxDt
  | ldDtVx | ldStVx | addI | ldF => cases h; exact advances_of_pc rfl

/-- Settles O46: both are the reset state of that `FONT`, up to the inputs that come next. -/
theorem resetLeavesTheseValues : Obligations.ResetLeavesTheseValues := by
  unfold Obligations.ResetLeavesTheseValues
  intro font s u h
  obtain ⟨n, sc, rfl⟩ := exists_inputs_of_reset h
  have hread := resetWith_mem_read font
  refine ⟨resetWith_getV font, rfl, rfl, rfl, fun _ => resetWith_stackEntry font, rfl, rfl, cell_clear, ?_, ?_, rfl, rfl⟩
  · exact fun a ha => (hread a).trans (dif_pos ha)
  · exact fun a ha _ => (hread a).trans (dif_neg (Nat.not_lt.mpr ha))

/-- Settles O47. -/
theorem resetMeetsTheInvariant : Obligations.ResetMeetsTheInvariant := by
  unfold Obligations.ResetMeetsTheInvariant
  exact ⟨resetWith_inv Config.defaultFont, resetWith_inv⟩

end Sys2Proof

/-! ## Memory (20_memory): the canonical form determines the data, a fetch sees what was stored -/

namespace Sys2Proof.Machine

/-! ### The canonical form (R50, R58) -/

namespace Memory

variable {m m' : Memory} {lo lo' a : Nat} {b : Byte} {l l' : List Host.Cell}

theorem default_congr (h : m.font = m'.font) (a : Nat) : m.default a = m'.default a := by
  unfold default
  rw [h]

/-- The first address of a canonical list is not listed again. -/
theorem findCell_cons_of_wfFrom (hl : m.wfFrom lo ((a, b) :: l) = true) :
    findCell ((a, b) :: l) a = some b ∧ findCell l a = none := by
  obtain ⟨_, _, _, hrest⟩ := (m.wfFrom_cons lo a b l).mp hl
  exact ⟨if_pos rfl, findCell_of_wfFrom hrest (Nat.lt_succ_self a)⟩

/-- The first address listed is the lowest one. -/
theorem le_of_findCell_cons {k : Nat} {c : Byte} (hl : m.wfFrom lo ((k, c) :: l) = true)
    (h : findCell ((k, c) :: l) a = some b) : k ≤ a := by
  by_contra hlow
  obtain ⟨_, hrest⟩ := (m.wfFrom_cons lo k c l).mp hl
  have hfrom : m.wfFrom k ((k, c) :: l) = true := (m.wfFrom_cons k k c l).mpr ⟨le_rfl, hrest⟩
  cases h.symm.trans (findCell_of_wfFrom hfrom (Nat.lt_of_not_le hlow))

/-- A byte listed in the canonical form is not what the address reads as unlisted. -/
theorem ne_default_of_findCell (hl : m.wfFrom lo l = true) (h : findCell l a = some b) : b ≠ m.default a := by
  induction l generalizing lo with
  | nil => cases h
  | cons e l ih =>
    obtain ⟨k, c⟩ := e
    obtain ⟨_, _, hc, hrest⟩ := (m.wfFrom_cons lo k c l).mp hl
    by_cases hk : a = k
    · subst hk
      cases (findCell_cons_of_wfFrom hl).1.symm.trans h
      exact hc
    · exact ih hrest ((if_neg hk).symm.trans h)

/-- In the canonical form the byte read says whether, and as what, the address is listed. -/
theorem findCell_eq_some_iff_of_wf (hm : m.wf = true) :
    findCell m.cells a = some b ↔ m.read a = b ∧ b ≠ m.default a := by
  unfold read
  constructor
  · intro h
    exact ⟨by rw [h]; rfl, ne_default_of_findCell hm h⟩
  · rintro ⟨hread, hne⟩
    cases hfind : findCell m.cells a with
    | none => exact absurd (by rw [← hread, hfind]; rfl) hne
    | some c => rw [← hread, hfind]; rfl

/-- Two canonical lists that list the same at every address: each begins with the lowest address listed, so they begin
alike, and without that address their rests list the same. -/
theorem eq_of_findCell_eq (hl : m.wfFrom lo l = true) (hl' : m.wfFrom lo' l' = true)
    (h : ∀ a, findCell l a = findCell l' a) : l = l' := by
  induction l generalizing lo lo' l' with
  | nil =>
    cases l' with
    | nil => rfl
    | cons e' l' => cases (h e'.1).trans (findCell_cons_of_wfFrom hl').1
  | cons e l ih =>
    obtain ⟨k, b⟩ := e
    cases l' with
    | nil => cases (h k).symm.trans (findCell_cons_of_wfFrom hl).1
    | cons e' l' =>
      obtain ⟨k', b'⟩ := e'
      obtain ⟨hk, hkrest⟩ := findCell_cons_of_wfFrom hl
      obtain ⟨hk', hkrest'⟩ := findCell_cons_of_wfFrom hl'
      have hkk : k = k' :=
        Nat.le_antisymm (le_of_findCell_cons hl ((h k').trans hk')) (le_of_findCell_cons hl' ((h k).symm.trans hk))
      subst hkk
      cases hk.symm.trans ((h k).trans hk')
      have hsame : ∀ a, findCell l a = findCell l' a := by
        intro a
        by_cases ha : a = k
        · rw [ha, hkrest, hkrest']
        · simpa [findCell, ha] using h a
      obtain ⟨_, _, _, hrest⟩ := (m.wfFrom_cons lo k b l).mp hl
      obtain ⟨_, _, _, hrest'⟩ := (m.wfFrom_cons lo' k b l').mp hl'
      rw [ih hrest hrest' hsame]

/-- The memory is its `FONT` and its cells, and what is read determines the cells. -/
theorem eq_of_read_eq (hfont : m.font = m'.font) (hm : m.wf = true) (hm' : m'.wf = true)
    (hread : ∀ a, m.read a = m'.read a) : m = m' := by
  have hfind : ∀ a, findCell m.cells a = findCell m'.cells a := fun a => Option.ext fun b => by
    rw [findCell_eq_some_iff_of_wf hm, findCell_eq_some_iff_of_wf hm', hread, default_congr hfont]
  have hcells : m.cells = m'.cells :=
    eq_of_findCell_eq hm ((wfFrom_congr (default_congr hfont) 0 m'.cells).trans hm') hfind
  cases m
  cases m'
  cases hfont
  cases hcells
  rfl

end Memory

/-! ### What was stored, and the fetch that reads it (R59, R63) -/

section

variable {s t : State}

/-- A write of bytes leaves each of them at its address. -/
theorem Memory.read_writeList_of_getElem? {m : Memory} {a k : Nat} {b : Byte} {bs : List Byte} (h : bs[k]? = some b) :
    (m.writeList a bs).read (a + k) = b := by
  obtain ⟨hk, rfl⟩ := List.getElem?_eq_some_iff.mp h
  exact Memory.read_writeList_inside bs m a k hk

/-- LD [I], Vx leaves `V[k]` at `I + k` (42_index_memory R154). -/
theorem read_of_exec_storeRegs {x k : Nibble} (h : exec (.storeRegs x) s = .next t) (hk : k.toNat ≤ x.toNat) :
    t.mem.read (s.idx.toNat + k.toNat) = s.getV k := by
  obtain ⟨_, rfl⟩ := execStoreRegs_next h
  exact Memory.read_writeList_of_getElem? (getElem?_regsUpTo s x k hk)

/-- Each entry of the digits is its digit exactly: a byte is at most 255, so every digit fits a byte. -/
theorem exists_getElem?_bcdDigits {b : Byte} {k digit : Nat}
    (hk : k = 0 ∧ digit = b.toNat / 100 ∨ k = 1 ∧ digit = b.toNat / 10 % 10 ∨ k = 2 ∧ digit = b.toNat % 10) :
    ∃ d : Byte, (bcdDigits b)[k]? = some d ∧ d.toNat = digit := by
  have hb := b.isLt
  refine ⟨BitVec.ofNat 8 digit, ?_, Nat.mod_eq_of_lt (by omega)⟩
  rcases hk with ⟨rfl, rfl⟩ | ⟨rfl, rfl⟩ | ⟨rfl, rfl⟩ <;> rfl

/-- LD B, Vx leaves the digit at `I + k` (42_index_memory R153). -/
theorem read_of_exec_ldB {x : Nibble} {k digit : Nat} (h : exec (.ldB x) s = .next t)
    (hk : k = 0 ∧ digit = (s.getV x).toNat / 100 ∨ k = 1 ∧ digit = (s.getV x).toNat / 10 % 10 ∨
      k = 2 ∧ digit = (s.getV x).toNat % 10) :
    (t.mem.read (s.idx.toNat + k)).toNat = digit := by
  obtain ⟨_, rfl⟩ := execLdB_next h
  obtain ⟨d, hd, rfl⟩ := exists_getElem?_bcdDigits hk
  exact congrArg BitVec.toNat (Memory.read_writeList_of_getElem? hd)

@[simp] theorem hiByte_wordOf (hi lo : Byte) : hiByte (wordOf hi lo) = hi := BitVec.extractLsb'_append_eq_left

@[simp] theorem loByte_wordOf (hi lo : Byte) : loByte (wordOf hi lo) = lo := BitVec.extractLsb'_append_eq_right

/-- A fetch in range gives the byte at `PC` and the one above it (30_encoding R71). -/
theorem fetch_bytes {u : State} (hpc : u.pc.toNat + 1 ≤ 4095) :
    ∃ op, u.fetch = .ok op ∧ hiByte op = u.mem.read u.pc.toNat ∧ loByte op = u.mem.read (u.pc.toNat + 1) := by
  rcases fetch_cases u with ⟨_, hfetch⟩ | ⟨hout, _⟩
  · exact ⟨_, hfetch, hiByte_wordOf _ _, loByte_wordOf _ _⟩
  · omega

end

end Sys2Proof.Machine

namespace Sys2Proof

open Sys2Proof.Machine

/-- Settles O55: what a canonical memory reads determines what it lists. -/
theorem canonicalMemoriesAreEqualData : Obligations.CanonicalMemoriesAreEqualData := by
  unfold Obligations.CanonicalMemoriesAreEqualData
  exact fun _ _ => Memory.eq_of_read_eq

/-- Settles O56: the fetch gives the two bytes that `u` reads, and `u` reads the stored byte as `t` does. -/
theorem storesAreSeenByTheNextFetch : Obligations.StoresAreSeenByTheNextFetch := by
  unfold Obligations.StoresAreSeenByTheNextFetch
  intro x s t u hpc
  obtain ⟨op, hfetch, hhi, hlo⟩ := fetch_bytes hpc
  refine ⟨op, hfetch, fun hexec k hk hsame => ?_, fun hexec k digit hk hsame => ?_⟩
  · have hread : u.mem.read (s.idx.toNat + k.toNat) = s.getV k := hsame.trans (read_of_exec_storeRegs hexec hk)
    exact ⟨fun hat => by rw [hhi, hat, hread], fun hat => by rw [hlo, hat, hread]⟩
  · have hread : (u.mem.read (s.idx.toNat + k)).toNat = digit := by rw [hsame, read_of_exec_ldB hexec hk]
    exact ⟨fun hat => by rw [hhi, hat, hread], fun hat => by rw [hlo, hat, hread]⟩

end Sys2Proof

/-! ## The encoding (30_encoding): encoder and decoder, the opcode map, the fetch, a step of the decoded instruction -/

namespace Sys2Proof

/-! ### Decoding what was encoded (R72, R73, R75) -/

/-- The decoder reads the family of a laid-out word, the sub-code in the families that have one, and the operands. -/
theorem decodeWord_encode (i : Instr) : decodeWord (encode i) = .ok i := by
  cases i with
  | jpAddr | callAddr | ldI | jpV0 | seImm | sneImm | ldImm | addImm | rnd | seReg | sneReg | drw =>
    simp [encode, decodeWord]
  | cls | ret => simp [encode, decodeWord, decodeFamily0]
  | ldReg | orReg | andReg | xorReg | addReg | subReg | shr | subnReg | shl => simp [encode, decodeWord, decodeFamily8]
  | skp | sknp => simp [encode, decodeWord, decodeFamilyE]
  | ldVxDt | ldVxK | ldDtVx | ldStVx | addI | ldF | ldB | storeRegs | loadRegs =>
    simp [encode, decodeWord, decodeFamilyF]

theorem decodeBytes_of_word (op : Word) (rest : List Byte) :
    decodeBytes (hiByte op :: loByte op :: rest) = (decodeWord op).map (·, rest) := by
  rw [decodeBytes, wordOf_bytes]
  cases decodeWord op <;> rfl

theorem decodeTableWord_eq_some {nbits w : Nat} {i : Instr} :
    decodeTableWord nbits w = some i ↔ decodeWord (tableWord nbits w) = .ok i := by
  rw [decodeTableWord, decodeBytes_of_word]
  cases decodeWord (tableWord nbits w) <;> simp [Except.map]

/-! ### The rows of the opcode map (R76) -/

theorem opcodeRow_statement (i : Instr) : Laws.OpcodeRow.Statement i := by
  cases i
  exacts [Laws.OpcodeRow.cls _, Laws.OpcodeRow.ret _, Laws.OpcodeRow.jpAddr _, Laws.OpcodeRow.callAddr _,
    Laws.OpcodeRow.seImm _ _, Laws.OpcodeRow.sneImm _ _, Laws.OpcodeRow.seReg _ _ _, Laws.OpcodeRow.ldImm _ _,
    Laws.OpcodeRow.addImm _ _, Laws.OpcodeRow.ldReg _ _, Laws.OpcodeRow.orReg _ _, Laws.OpcodeRow.andReg _ _,
    Laws.OpcodeRow.xorReg _ _, Laws.OpcodeRow.addReg _ _, Laws.OpcodeRow.subReg _ _, Laws.OpcodeRow.shr _ _,
    Laws.OpcodeRow.subnReg _ _, Laws.OpcodeRow.shl _ _, Laws.OpcodeRow.sneReg _ _ _, Laws.OpcodeRow.ldI _,
    Laws.OpcodeRow.jpV0 _, Laws.OpcodeRow.rnd _ _, Laws.OpcodeRow.drw _ _ _, Laws.OpcodeRow.skp _,
    Laws.OpcodeRow.sknp _, Laws.OpcodeRow.ldVxDt _, Laws.OpcodeRow.ldVxK _, Laws.OpcodeRow.ldDtVx _,
    Laws.OpcodeRow.ldStVx _, Laws.OpcodeRow.addI _, Laws.OpcodeRow.ldF _, Laws.OpcodeRow.ldB _,
    Laws.OpcodeRow.storeRegs _, Laws.OpcodeRow.loadRegs _]

theorem opcodeRow_mem_opcodeMap (i : Instr) : opcodeRow i ∈ opcodeMap := (opcodeRow_statement i).2

theorem opcodeRow_selects_encode (i : Instr) : (opcodeRow i).selects (encode i) = true := (opcodeRow_statement i).1

/-- Two rows that agree where both masks look are one row. -/
theorem opcodeMap_disjoint :
    ∀ r ∈ opcodeMap, ∀ q ∈ opcodeMap, r.pattern &&& q.mask = q.pattern &&& r.mask → r = q := by
  decide

section

variable {op : Word} {r q : OpcodeRow} {f : Nibble}

theorem OpcodeRow.selects_iff : r.selects op = true ↔ op &&& r.mask = r.pattern := beq_iff_eq

theorem eq_of_selects (hr : r ∈ opcodeMap) (hq : q ∈ opcodeMap) (h : r.selects op = true) (h' : q.selects op = true) :
    r = q := by
  apply opcodeMap_disjoint r hr q hq
  rw [← OpcodeRow.selects_iff.mp h, ← OpcodeRow.selects_iff.mp h', BitVec.and_assoc, BitVec.and_assoc,
    BitVec.and_comm r.mask]

/-- A field that a row's mask keeps whole is the same in every word the row selects. -/
theorem extractLsb'_pattern_of_selects {a n : Nat} (h : r.selects op = true)
    (hmask : r.mask.extractLsb' a n = BitVec.allOnes n) : r.pattern.extractLsb' a n = op.extractLsb' a n := by
  rw [← OpcodeRow.selects_iff.mp h, BitVec.extractLsb'_and, hmask, BitVec.and_allOnes]

/-- Every row looks at the whole family. -/
theorem fieldFamily_mask : ∀ r ∈ opcodeMap, fieldFamily r.mask = BitVec.allOnes 4 := by decide

/-- In a family whose rows all look at one more field, the sub-code, no row selects a sub-code that is none of theirs. -/
theorem no_row_of_subcode (a n : Nat) (codes : List (BitVec n))
    (htable : ∀ r ∈ opcodeMap, fieldFamily r.pattern = f →
      r.mask.extractLsb' a n = BitVec.allOnes n ∧ r.pattern.extractLsb' a n ∈ codes)
    (hf : fieldFamily op = f) (hcode : op.extractLsb' a n ∉ codes) : ∀ r ∈ opcodeMap, r.selects op = false := by
  intro r hr
  refine Bool.eq_false_iff.mpr fun h => hcode ?_
  have hfamily : fieldFamily r.pattern = fieldFamily op := extractLsb'_pattern_of_selects h (fieldFamily_mask r hr)
  obtain ⟨hmask, hmem⟩ := htable r hr (hfamily.trans hf)
  rwa [← extractLsb'_pattern_of_selects h hmask]

end

/-! ### What the decoder can answer (R75, R77) -/

/-- The answers for a word: an instruction that encodes to it, or, where no row selects it, the invalid opcode.
`decodeWord_answers` ties it to the decoder. -/
inductive Answers (op : Word) : Except DecodeError Instr → Prop where
  | instr (i : Instr) (h : encode i = op) : Answers op (.ok i)
  | invalid (h : ∀ r ∈ opcodeMap, r.selects op = false) : Answers op (.error (.invalidOpcode op))

section

variable {op : Word} {f : Nibble}

theorem layoutAddr_of_fields (hf : fieldFamily op = f) : layoutAddr f (fieldAddr op) = op := by
  subst hf
  exact layoutAddr_fields op

theorem layoutXKK_of_fields {kk : Byte} (hf : fieldFamily op = f) (hk : fieldKK op = kk) :
    layoutXKK f (fieldX op) kk = op := by
  subst hf hk
  exact layoutXKK_fields op

theorem layoutXYN_of_fields {n : Nibble} (hf : fieldFamily op = f) (hn : fieldN op = n) :
    layoutXYN f (fieldX op) (fieldY op) n = op := by
  subst hf hn
  exact layoutXYN_fields op

theorem decodeFamily0_answers (hf : fieldFamily op = 0x0) : Answers op (decodeFamily0 op) := by
  unfold decodeFamily0
  split
  case h_3 =>
    have hcode : fieldKK op ∉ [0xE0, 0xEE] := by simp_all
    exact .invalid (no_row_of_subcode 0 8 _ (by decide) hf hcode)
  all_goals exact .instr _ (layoutXKK_of_fields hf ‹_›)

theorem decodeFamily8_answers (hf : fieldFamily op = 0x8) : Answers op (decodeFamily8 op) := by
  unfold decodeFamily8
  split
  case h_10 =>
    have hcode : fieldN op ∉ [0, 1, 2, 3, 4, 5, 6, 7, 0xE] := by simp_all
    exact .invalid (no_row_of_subcode 0 4 _ (by decide) hf hcode)
  all_goals exact .instr _ (layoutXYN_of_fields hf ‹_›)

theorem decodeFamilyE_answers (hf : fieldFamily op = 0xE) : Answers op (decodeFamilyE op) := by
  unfold decodeFamilyE
  split
  case h_3 =>
    have hcode : fieldKK op ∉ [0x9E, 0xA1] := by simp_all
    exact .invalid (no_row_of_subcode 0 8 _ (by decide) hf hcode)
  all_goals exact .instr _ (layoutXKK_of_fields hf ‹_›)

theorem decodeFamilyF_answers (hf : fieldFamily op = 0xF) : Answers op (decodeFamilyF op) := by
  unfold decodeFamilyF
  split
  case h_10 =>
    have hcode : fieldKK op ∉ [0x07, 0x0A, 0x15, 0x18, 0x1E, 0x29, 0x33, 0x55, 0x65] := by simp_all
    exact .invalid (no_row_of_subcode 0 8 _ (by decide) hf hcode)
  all_goals exact .instr _ (layoutXKK_of_fields hf ‹_›)

end

theorem decodeWord_answers (op : Word) : Answers op (decodeWord op) := by
  unfold decodeWord
  split <;> rename_i hf
  case h_1 => exact decodeFamily0_answers hf
  case h_2 | h_3 | h_11 | h_12 => exact .instr _ (layoutAddr_of_fields hf)
  case h_4 | h_5 | h_7 | h_8 | h_13 => exact .instr _ (layoutXKK_of_fields hf rfl)
  case h_6 | h_10 | h_14 => exact .instr _ (layoutXYN_of_fields hf rfl)
  case h_9 => exact decodeFamily8_answers hf
  case h_15 => exact decodeFamilyE_answers hf
  case h_16 => exact decodeFamilyF_answers hf
  -- the sixteen families listed are all there are
  case h_17 => exfalso; generalize fieldFamily op = f at *; revert f; decide

theorem encode_of_decodeWord {op : Word} {i : Instr} (h : decodeWord op = .ok i) : encode i = op := by
  cases h ▸ decodeWord_answers op with
  | instr _ henc => exact henc

theorem invalid_of_decodeWord_error {op : Word} {e : DecodeError} (h : decodeWord op = .error e) :
    e = .invalidOpcode op ∧ ∀ r ∈ opcodeMap, r.selects op = false := by
  cases h ▸ decodeWord_answers op with
  | invalid hno => exact ⟨rfl, hno⟩

/-- A word that no row selects is not decoded: its instruction's own row would select it. -/
theorem decodeWord_of_no_row {op : Word} (hno : ∀ r ∈ opcodeMap, r.selects op = false) :
    decodeWord op = .error (.invalidOpcode op) := by
  cases hd : decodeWord op with
  | error e => rw [(invalid_of_decodeWord_error hd).1]
  | ok i =>
    have hsel := opcodeRow_selects_encode i
    rw [encode_of_decodeWord hd, hno _ (opcodeRow_mem_opcodeMap i)] at hsel
    cases hsel

end Sys2Proof

namespace Sys2Proof.Machine

/-! ### A step of the decoded instruction (R84) -/

theorem step_of_decode {s : State} {op : Word} {i : Instr} (hrun : s.halted = none) (hf : s.fetch = .ok op)
    (hd : decodeWord op = .ok i) : step s = mapNext State.endTick (exec i s) := by
  simp only [step, tick, hrun, hf, hd, Option.isSome_none, Bool.false_eq_true, if_false]
  cases exec i s <;> rfl

/-- After a `TICK` of a running machine the timers count down and the inputs move on. -/
theorem endTick_of_running {t : State} (hrun : t.halted = none) :
    t.endTick =
      ((t.setDt (countDownBy t.inputs.frames t.dt)).setSt (countDownBy t.inputs.frames t.st)).moveOn := by
  rcases frames_cases t t.inputs.frames with ⟨hhalt, _⟩ | ⟨_, e⟩
  · rw [hrun] at hhalt; cases hhalt
  · rw [State.endTick, e]

/-! ### The fetch (R71) -/

theorem fetch_of_in_range {s : State} (hpc : s.pc.toNat ≤ 0xFFE) :
    s.fetch = .ok (wordOf (s.mem.read s.pc.toNat) (s.mem.read (s.pc.toNat + 1))) := by
  rcases fetch_cases s with ⟨_, e⟩ | ⟨hout, _⟩
  · exact e
  · omega

theorem fetch_of_out_of_range {s : State} (hpc : 0xFFF ≤ s.pc.toNat) :
    s.fetch = .error (.memoryOutOfRange ⟨0, s.pc, addressInfo (max s.pc.toNat 4096)⟩) := by
  rcases fetch_cases s with ⟨hin, _⟩ | ⟨_, e⟩
  · omega
  · exact e

/-! ### The word placed for the next fetch (entry 10) -/

variable (s : State) (nbits w : Nat)

/-- A whole word lies at the address where an instruction is placed. -/
theorem fetchAddress_le : s.fetchAddress ≤ 0xFFE := by
  unfold State.fetchAddress Config.memSize Config.progBase
  split <;> omega

theorem toNat_withFetchWord_pc : (s.withFetchWord nbits w).pc.toNat = s.fetchAddress := by
  have := fetchAddress_le s
  exact Nat.mod_eq_of_lt (by omega)

theorem withFetchWord_mem : (s.withFetchWord nbits w).mem =
    s.mem.writeList s.fetchAddress [hiByte (tableWord nbits w), loByte (tableWord nbits w)] := rfl

theorem fetch_withFetchWord : (s.withFetchWord nbits w).fetch = .ok (tableWord nbits w) := by
  have hpc := toNat_withFetchWord_pc s nbits w
  have hhi : (s.withFetchWord nbits w).mem.read s.fetchAddress = hiByte (tableWord nbits w) :=
    Memory.read_writeList_of_getElem? (k := 0) rfl
  have hlo : (s.withFetchWord nbits w).mem.read (s.fetchAddress + 1) = loByte (tableWord nbits w) :=
    Memory.read_writeList_of_getElem? (k := 1) rfl
  rw [fetch_of_in_range (hpc.trans_le (fetchAddress_le s)), hpc, hhi, hlo, wordOf_bytes]

theorem withFetchWord_inv {s : State} (h : s.Inv) : (s.withFetchWord nbits w).Inv := by
  obtain ⟨hsp, hmem⟩ := h
  exact ⟨hsp, Memory.wf_writeList hmem (Nat.add_le_add_right (fetchAddress_le s) 2)⟩

end Sys2Proof.Machine

namespace Sys2Proof

open Sys2Proof.Machine

/-- Settles O1: the bytes make the word again, and the decoder reads the word's fields. -/
theorem decodeOfEncodeIsIdentity : Obligations.DecodeOfEncodeIsIdentity := by
  unfold Obligations.DecodeOfEncodeIsIdentity
  intro i rest
  exact (decodeBytes_of_word (encode i) rest).trans (by rw [decodeWord_encode]; rfl)

/-- Settles O2: the decoder's answers are instructions laid out in the word. -/
theorem encodeOfDecodeIsIdentity : Obligations.EncodeOfDecodeIsIdentity := by
  unfold Obligations.EncodeOfDecodeIsIdentity
  exact fun _ _ => encode_of_decodeWord

/-- Settles O3: an invalid word is one whose family has no row for its sub-code, and the rows exclude one another. -/
theorem invalidExactlyWhenNoRowSelected : Obligations.InvalidExactlyWhenNoRowSelected := by
  unfold Obligations.InvalidExactlyWhenNoRowSelected
  intro op
  refine ⟨⟨fun h => (invalid_of_decodeWord_error h).2, decodeWord_of_no_row⟩,
    fun e h => (invalid_of_decodeWord_error h).1, fun i h r hr => ?_⟩
  have hsel : (opcodeRow i).selects op = true := encode_of_decodeWord h ▸ opcodeRow_selects_encode i
  constructor
  · exact fun hrow => eq_of_selects hr (opcodeRow_mem_opcodeMap i) hrow hsel
  · rintro rfl
    exact hsel

/-- Settles O60: the placed word is the one fetched, and it is placed in range. -/
theorem placedWordIsTheNextInstruction : Obligations.PlacedWordIsTheNextInstruction := by
  unfold Obligations.PlacedWordIsTheNextInstruction
  intro s nbits w i h
  have hstep : step (s.withFetchWord nbits w) = mapNext State.endTick (exec i (s.withFetchWord nbits w)) :=
    step_of_decode rfl (fetch_withFetchWord s nbits w) (decodeTableWord_eq_some.mp h)
  exact ⟨⟨fun _ e => hstep.trans (congrArg (mapNext _) e), fun _ e => hstep.trans (congrArg (mapNext _) e)⟩,
    withFetchWord_inv nbits w⟩

/-- Settles O4: the seven valid words are encodings, the last one is computed. -/
theorem sampleWordsDecode : Obligations.SampleWordsDecode := by
  unfold Obligations.SampleWordsDecode
  exact ⟨decodeWord_encode (.ret 0), decodeWord_encode (.callAddr 0x300), decodeWord_encode (.shr 0xA 0xB),
    decodeWord_encode (.ldI 0x2F0), decodeWord_encode (.drw 0x7 0xA 0x5), decodeWord_encode (.skp 0x2),
    decodeWord_encode (.loadRegs 0x1), by decide⟩

/-- Settles O34: the step follows `exec`, then the timers count down and the inputs move on. -/
theorem stepRunsTheDecodedInstruction : Obligations.StepRunsTheDecodedInstruction := by
  unfold Obligations.StepRunsTheDecodedInstruction
  constructor
  · intro s i hrun hpc hd
    have hstep : step s = mapNext State.endTick (exec i s) := step_of_decode hrun (fetch_of_in_range hpc) hd
    exact ⟨fun _ e => hstep.trans (congrArg (mapNext _) e), fun _ e => hstep.trans (congrArg (mapNext _) e),
      fun _ e => hstep.trans (congrArg (mapNext _) e)⟩
  · intro t hrun
    rw [endTick_of_running hrun]
    exact ⟨toNat_countDownBy _ _, toNat_countDownBy _ _, fun _ => rfl, rfl, rfl, ⟨rfl, fun _ => rfl⟩, fun _ _ => rfl,
      fun _ => rfl, rfl, hrun, rfl, rfl, rfl⟩

/-- Settles O35: the first address above 4095 is `PC` itself, or 4096 where `PC` is the last address. -/
theorem fetchIsBigEndianAndBounded : Obligations.FetchIsBigEndianAndBounded := by
  unfold Obligations.FetchIsBigEndianAndBounded
  intro s
  refine ⟨fun hpc => ?_, fun hpc => ?_, fun hpc => ?_⟩
  · exact ⟨_, fetch_of_in_range (by omega), toNat_wordOf _ _⟩
  · rw [fetch_of_out_of_range (by omega), max_eq_left (by omega), addressInfo, BitVec.ofNat_toNat, BitVec.setWidth_eq]
  · rw [fetch_of_out_of_range (by omega), hpc]
    rfl

end Sys2Proof

/-! ## Control transfer (40_control_flow): RET, CALL, the jumps and the skips -/

namespace Sys2Proof.Machine

section

variable {s : State}

/-! ### What a jump or a skip leaves (R100, R25) -/

theorem keepsBeyondRegs_setPc (s : State) (w : Word) : KeepsBeyondRegs s (s.setPc w) :=
  ⟨rfl, ⟨rfl, fun _ => rfl⟩, ⟨rfl, rfl⟩, fun _ _ => rfl, fun _ => rfl, rfl, rfl, rfl, rfl, rfl⟩

/-- An instruction that answers with a new `PC` and nothing else: what is known of that `PC`, and the whole frame. -/
theorem exists_next_of_setPc {i : Instr} {w : Word} {P : State → Prop} (h : exec i s = .next (s.setPc w))
    (hP : P (s.setPc w)) : ∃ t, exec i s = .next t ∧ P t ∧ KeepsRegs s t ∧ KeepsBeyondRegs s t :=
  ⟨s.setPc w, h, hP, getV_setPc s w, keepsBeyondRegs_setPc s w⟩

theorem exists_next_of_skipIf {i : Instr} {c : Bool} {P : Prop} (h : exec i s = .next (s.skipIf c)) (hc : c = true ↔ P) :
    ∃ t, exec i s = .next t ∧ Skips P s t ∧ KeepsRegs s t ∧ KeepsBeyondRegs s t :=
  exists_next_of_setPc (P := Skips P s) h (skips_skipIf s hc)

/-! ### RET and CALL by `SP` (R101, R103) -/

theorem execRet_of_sp_zero {m : Nibble} (h : s.sp = 0) :
    execRet m s = .fault (.stackUnderflow ⟨encode (.ret m), s.pc, s.sp.setWidth 16⟩) := by
  rcases execRet_cases m s with ⟨_, e⟩ | ⟨_, hpos, _⟩ | ⟨hpos, _⟩
  · exact e
  · exact absurd h hpos
  · exact absurd h hpos

theorem execRet_of_stackEntry {m : Nibble} {ra : Word} (hpos : 1 ≤ s.sp.toNat)
    (hra : s.stackEntry (s.sp.toNat - 1) = some ra) : execRet m s = .next ((s.setSp (s.sp - 1)).setPc (ra + 2)) := by
  rcases execRet_cases m s with ⟨hzero, _⟩ | ⟨ra', _, _, hra', e⟩ | ⟨_, hpast, _⟩
  · simp [hzero] at hpos
  · cases hra.symm.trans hra'
    exact e
  · have hexists := stackEntry_isSome s (s.sp.toNat - 1)
    rw [hra, Option.isSome_some] at hexists
    have := of_decide_eq_true hexists.symm
    omega

theorem execCallAddr_of_full {addr : Addr} (h : 15 ≤ s.sp.toNat) :
    execCallAddr addr s = .fault (.stackOverflow ⟨encode (.callAddr addr), s.pc, s.sp.setWidth 16⟩) := by
  rcases execCallAddr_cases addr s with ⟨_, e⟩ | ⟨hlt, _⟩
  · exact e
  · omega

theorem execCallAddr_of_room {addr : Addr} (h : s.sp.toNat < 15) :
    execCallAddr addr s = .next ((s.push s.pc).jump addr) := by
  rcases execCallAddr_cases addr s with ⟨hfull, _⟩ | ⟨_, e⟩
  · omega
  · exact e

theorem stackEntry_push_same (s : State) (w : Word) (h : s.sp.toNat < 16) : (s.push w).stackEntry s.sp.toNat = some w := by
  rw [stackEntry_push, if_pos ⟨rfl, h⟩]

theorem stackEntry_push_ne (s : State) (w : Word) {k : Nat} (h : k ≠ s.sp.toNat) :
    (s.push w).stackEntry k = s.stackEntry k := by
  by_contra hne
  exact h (eq_sp_of_stackEntry_push_ne hne)

end

end Sys2Proof.Machine

namespace Sys2Proof

open Sys2Proof.Machine

/-- Settles O5: `SP` tells the underflow from the pop; the entry popped stays where it was. -/
theorem retPopsAndAddsTwo : Obligations.RetPopsAndAddsTwo := by
  unfold Obligations.RetPopsAndAddsTwo
  intro m s
  refine ⟨rfl, OpcodeRow.selects_iff.mp (opcodeRow_selects_encode (.ret m)), execRet_of_sp_zero, fun ra hpos hra => ?_⟩
  have hsp : (s.sp - 1).toNat = s.sp.toNat - 1 := by bv_omega
  exact ⟨_, execRet_of_stackEntry hpos hra, hsp, BitVec.toNat_add ra 2, fun _ => rfl, fun _ => rfl, rfl, ⟨rfl, rfl⟩,
    fun _ _ => rfl, fun _ => rfl, rfl, rfl, rfl, rfl, rfl⟩

/-- Settles O6. -/
theorem jpGoesToAddress : Obligations.JpGoesToAddress := by
  unfold Obligations.JpGoesToAddress
  intro addr s
  have hpc : (s.jump addr).pc.toNat = addr.toNat := BitVec.toNat_setWidth_of_le (by decide)
  exact ⟨layoutAddr_eq 0x1 addr, exists_next_of_setPc (P := fun t => t.pc.toNat = addr.toNat) rfl hpc⟩

/-- Settles O7: the push writes the entry at `SP`, which exists below 15, and no other. -/
theorem callPushesItsOwnAddress : Obligations.CallPushesItsOwnAddress := by
  unfold Obligations.CallPushesItsOwnAddress
  intro addr s
  refine ⟨layoutAddr_eq 0x2 addr, execCallAddr_of_full, fun hroom => ?_⟩
  have hsp : (s.sp + 1).toNat = s.sp.toNat + 1 := by bv_omega
  exact ⟨_, execCallAddr_of_room hroom, stackEntry_push_same s s.pc (by omega), fun _ => stackEntry_push_ne s s.pc, hsp,
    BitVec.toNat_setWidth_of_le (by decide), fun _ => rfl, rfl, ⟨rfl, rfl⟩, fun _ _ => rfl, fun _ => rfl,
    rfl, rfl, rfl, rfl, rfl⟩

/-- Settles O8: the four skips differ in the condition alone. -/
theorem skipsAddFourOrTwo : Obligations.SkipsAddFourOrTwo := by
  unfold Obligations.SkipsAddFourOrTwo
  intro x y m kk s
  refine ⟨layoutXKK_eq 0x3 x kk, layoutXKK_eq 0x4 x kk, layoutXY_eq 0x5 x y 0, layoutXY_eq 0x9 x y 0, ?_, ?_, ?_, ?_⟩
  · exact exists_next_of_skipIf rfl beq_iff_eq
  · exact exists_next_of_skipIf rfl bne_iff_ne
  · exact exists_next_of_skipIf rfl beq_iff_eq
  · exact exists_next_of_skipIf rfl bne_iff_ne

/-- Settles O9: a byte and an address have a sum of 16 bits, so nothing is reduced. -/
theorem jpV0AddsV0Unmasked : Obligations.JpV0AddsV0Unmasked := by
  unfold Obligations.JpV0AddsV0Unmasked
  intro addr s
  exact ⟨layoutAddr_eq 0xB addr, exists_next_of_setPc (P := fun t => t.pc.toNat = (s.getV 0).toNat + addr.toNat) rfl
    (toNat_add_setWidth_16 (s.getV 0) addr)⟩

end Sys2Proof

/-! ## Load, arithmetic, logic, shift and random (41_load_arith_logic) -/

namespace Sys2Proof.Machine

section

variable {s : State}

/-! ### What a result leaves (R119 to R133) -/

theorem getV_result_same (s : State) (x : Nibble) (b : Byte) : (s.result x b).getV x = b := by
  rw [getV_result, if_pos rfl]

theorem keepsRegsBut_result (s : State) (x : Nibble) (b : Byte) : KeepsRegsBut (· = x) s (s.result x b) := by
  intro r hr
  rw [getV_result, if_neg hr]

theorem keepsBeyondRegs_result (s : State) (x : Nibble) (b : Byte) : KeepsBeyondRegs s (s.result x b) :=
  ⟨rfl, ⟨rfl, fun _ => rfl⟩, ⟨rfl, rfl⟩, fun _ _ => rfl, fun _ => rfl, rfl, rfl, rfl, rfl, rfl⟩

/-- An instruction that answers with a result and no flag: what is known of that result, and the whole frame. -/
theorem exists_next_of_result {i : Instr} {x : Nibble} {b : Byte} (P : Byte → Prop) (h : exec i s = .next (s.result x b))
    (hP : P b) :
    ∃ t, exec i s = .next t ∧ P (t.getV x) ∧ KeepsRegsBut (· = x) s t ∧ Advances s t ∧ KeepsBeyondRegs s t :=
  ⟨s.result x b, h, (getV_result_same s x b).symm ▸ hP, keepsRegsBut_result s x b, advances_of_pc rfl,
    keepsBeyondRegs_result s x b⟩

/-- The flag is written last, so it stands whatever the destination is (R133). -/
theorem getV_resultFlag_F (s : State) (x : Nibble) (b : Byte) (c : Bool) :
    (s.resultFlag x b c).getV 0xF = flagByte c := by
  rw [getV_resultFlag, if_pos rfl]

theorem getV_resultFlag_same {x : Nibble} (hx : x ≠ 0xF) (b : Byte) (c : Bool) : (s.resultFlag x b c).getV x = b := by
  rw [getV_resultFlag, if_neg hx, if_pos rfl]

theorem keepsRegsBut_resultFlag (s : State) (x : Nibble) (b : Byte) (c : Bool) :
    KeepsRegsBut (fun r => r = x ∨ r = 0xF) s (s.resultFlag x b c) := by
  intro r hr
  obtain ⟨hx, hF⟩ := not_or.mp hr
  rw [getV_resultFlag, if_neg hF, if_neg hx]

theorem keepsBeyondRegs_resultFlag (s : State) (x : Nibble) (b : Byte) (c : Bool) :
    KeepsBeyondRegs s (s.resultFlag x b c) :=
  ⟨rfl, ⟨rfl, fun _ => rfl⟩, ⟨rfl, rfl⟩, fun _ _ => rfl, fun _ => rfl, rfl, rfl, rfl, rfl, rfl⟩

/-- An instruction that answers with a result and a flag: what is known of both, and the whole frame. -/
theorem exists_next_of_resultFlag {i : Instr} {x : Nibble} {b : Byte} {c : Bool} (P Q : Byte → Prop)
    (h : exec i s = .next (s.resultFlag x b c)) (hP : P b) (hQ : Q (flagByte c)) :
    ∃ t, exec i s = .next t ∧ (x ≠ 0xF → P (t.getV x)) ∧ Q (t.getV 0xF) ∧
      KeepsRegsBut (fun r => r = x ∨ r = 0xF) s t ∧ Advances s t ∧ KeepsBeyondRegs s t :=
  ⟨s.resultFlag x b c, h, fun hx => (getV_resultFlag_same hx b c).symm ▸ hP, (getV_resultFlag_F s x b c).symm ▸ hQ,
    keepsRegsBut_resultFlag s x b c, advances_of_pc rfl, keepsBeyondRegs_resultFlag s x b c⟩

theorem getV_F_of_exec_resultFlag {i : Instr} {x : Nibble} {b : Byte} {c : Bool} {t : State}
    (h : exec i s = .next (s.resultFlag x b c)) (ht : exec i s = .next t) : t.getV 0xF = flagByte c := by
  cases h.symm.trans ht
  exact getV_resultFlag_F s x b c

end

/-! ### The flags as numbers (R126 to R130) -/

theorem flagByte_decide (P : Prop) [Decidable P] : flagByte (decide P) = if P then 1 else 0 := by
  simp [flagByte]

theorem flagByte_carryOut (a b : Byte) : flagByte (carryOut a b) = if a.toNat + b.toNat > 255 then 1 else 0 :=
  flagByte_decide _

theorem flagByte_noBorrow (a b : Byte) : flagByte (noBorrow a b) = if a.toNat ≥ b.toNat then 1 else 0 :=
  flagByte_decide _

theorem toNat_flagByte (c : Bool) : (flagByte c).toNat = c.toNat := by
  cases c <;> rfl

theorem toNat_flagByte_shiftedOutRight (a : Byte) : (flagByte (shiftedOutRight a)).toNat = a.toNat % 2 := by
  rw [toNat_flagByte, shiftedOutRight, BitVec.getLsbD, Nat.toNat_testBit, pow_zero, Nat.div_one]

theorem toNat_flagByte_shiftedOutLeft (a : Byte) : (flagByte (shiftedOutLeft a)).toNat = a.toNat / 128 := by
  rw [toNat_flagByte, shiftedOutLeft, BitVec.getLsbD, Nat.toNat_testBit]
  have := a.isLt
  omega

/-! ### The results as numbers (R127 to R131) -/

/-- The difference of two bytes is the non-negative remainder of the exact one (00_scope R11). -/
theorem toNat_sub_eq_emod (a b : Byte) : ((a - b).toNat : Int) = (a.toNat - b.toNat : Int) % 256 := by
  rw [BitVec.toNat_sub]
  have := b.isLt
  omega

theorem toNat_ushiftRight_one (a : Byte) : (a >>> 1).toNat = a.toNat / 2 := by
  rw [BitVec.toNat_ushiftRight, Nat.shiftRight_one]

theorem toNat_shiftLeft_one (a : Byte) : (a <<< 1).toNat = a.toNat * 2 % 256 := by
  rw [BitVec.toNat_shiftLeft, Nat.shiftLeft_eq, pow_one]

theorem and_and_not_self (r kk : Byte) : r &&& kk &&& ~~~kk = 0 := by
  rw [BitVec.and_assoc, BitVec.and_not_self]
  exact BitVec.and_zero

end Sys2Proof.Machine

namespace Sys2Proof

open Sys2Proof.Machine

/-- Settles O10. -/
theorem loadsCopyTheirOperand : Obligations.LoadsCopyTheirOperand := by
  unfold Obligations.LoadsCopyTheirOperand
  intro x y kk s
  exact ⟨layoutXKK_eq 0x6 x kk, layoutXY_eq 0x8 x y 0x0, exists_next_of_result (· = kk) rfl rfl,
    exists_next_of_result (· = s.getV y) rfl rfl⟩

/-- Settles O11. -/
theorem addImmediateWrapsWithoutFlag : Obligations.AddImmediateWrapsWithoutFlag := by
  unfold Obligations.AddImmediateWrapsWithoutFlag
  intro x kk s
  exact ⟨layoutXKK_eq 0x7 x kk,
    exists_next_of_result (·.toNat = ((s.getV x).toNat + kk.toNat) % 256) rfl (BitVec.toNat_add _ _)⟩

/-- Settles O12. -/
theorem logicIsBitwiseWithoutFlag : Obligations.LogicIsBitwiseWithoutFlag := by
  unfold Obligations.LogicIsBitwiseWithoutFlag
  intro x y s
  refine ⟨layoutXY_eq 0x8 x y 0x1, layoutXY_eq 0x8 x y 0x2, layoutXY_eq 0x8 x y 0x3, ?_, ?_, ?_⟩
  · exact exists_next_of_result (fun v => ∀ b, v.getLsbD b = ((s.getV x).getLsbD b || (s.getV y).getLsbD b)) rfl
      fun _ => BitVec.getLsbD_or
  · exact exists_next_of_result (fun v => ∀ b, v.getLsbD b = ((s.getV x).getLsbD b && (s.getV y).getLsbD b)) rfl
      fun _ => BitVec.getLsbD_and
  · exact exists_next_of_result (fun v => ∀ b, v.getLsbD b = ((s.getV x).getLsbD b ^^ (s.getV y).getLsbD b)) rfl
      fun _ => BitVec.getLsbD_xor

/-- Settles O13. -/
theorem addSetsCarry : Obligations.AddSetsCarry := by
  unfold Obligations.AddSetsCarry
  intro x y s
  exact ⟨layoutXY_eq 0x8 x y 0x4, exists_next_of_resultFlag (·.toNat = ((s.getV x).toNat + (s.getV y).toNat) % 256)
    (· = if (s.getV x).toNat + (s.getV y).toNat > 255 then 1 else 0) rfl (BitVec.toNat_add _ _) (flagByte_carryOut _ _)⟩

/-- Settles O14: the two differ in which register is the minuend. -/
theorem subtractionsSetNoBorrow : Obligations.SubtractionsSetNoBorrow := by
  unfold Obligations.SubtractionsSetNoBorrow
  intro x y s
  refine ⟨layoutXY_eq 0x8 x y 0x5, layoutXY_eq 0x8 x y 0x7, ?_, ?_⟩
  · exact exists_next_of_resultFlag (fun v => (v.toNat : Int) = ((s.getV x).toNat - (s.getV y).toNat : Int) % 256)
      (· = if (s.getV x).toNat ≥ (s.getV y).toNat then 1 else 0) rfl (toNat_sub_eq_emod _ _) (flagByte_noBorrow _ _)
  · exact exists_next_of_resultFlag (fun v => (v.toNat : Int) = ((s.getV y).toNat - (s.getV x).toNat : Int) % 256)
      (· = if (s.getV y).toNat ≥ (s.getV x).toNat then 1 else 0) rfl (toNat_sub_eq_emod _ _) (flagByte_noBorrow _ _)

/-- Settles O15: `y` does not occur in what either shift answers. -/
theorem shiftsPutTheBitOutInVF : Obligations.ShiftsPutTheBitOutInVF := by
  unfold Obligations.ShiftsPutTheBitOutInVF
  intro x y s
  refine ⟨layoutXY_eq 0x8 x y 0x6, layoutXY_eq 0x8 x y 0xE, ?_, ?_⟩
  · exact exists_next_of_resultFlag (·.toNat = (s.getV x).toNat / 2) (·.toNat = (s.getV x).toNat % 2) rfl
      (toNat_ushiftRight_one _) (toNat_flagByte_shiftedOutRight _)
  · exact exists_next_of_resultFlag (·.toNat = (s.getV x).toNat * 2 % 256) (·.toNat = (s.getV x).toNat / 128) rfl
      (toNat_shiftLeft_one _) (toNat_flagByte_shiftedOutLeft _)

/-- Settles O16: the flag is written after the result, from the operands of the state before. -/
theorem flagSurvivesAsDestination : Obligations.FlagSurvivesAsDestination := by
  unfold Obligations.FlagSurvivesAsDestination
  intro y s t
  refine ⟨fun h => ?_, fun h => ?_, fun h => ?_, fun h => ?_, fun h => ?_⟩
  · exact (getV_F_of_exec_resultFlag rfl h).trans (flagByte_carryOut _ _)
  · exact (getV_F_of_exec_resultFlag rfl h).trans (flagByte_noBorrow _ _)
  · exact (getV_F_of_exec_resultFlag rfl h).trans (flagByte_noBorrow _ _)
  · exact getV_F_of_exec_resultFlag rfl h
  · exact getV_F_of_exec_resultFlag rfl h

/-- Settles O17: a script that settles the random byte of this `TICK` as `r` makes `r` the one masked. -/
theorem rndMasksAFreeByte : Obligations.RndMasksAFreeByte := by
  unfold Obligations.RndMasksAFreeByte
  intro x kk s
  refine ⟨layoutXKK_eq 0xC x kk, ?_, fun r => ?_⟩
  · obtain ⟨t, h, ⟨hv, hmask⟩, hframe⟩ := exists_next_of_result
      (fun v => v = s.randomByte &&& kk ∧ v &&& ~~~kk = 0) (i := .rnd x kk) rfl ⟨rfl, and_and_not_self _ _⟩
    exact ⟨t, h, hv, hmask, hframe⟩
  · exact ⟨[{ s.inputs with randomByte := r }], _, rfl, getV_result_same _ x (r &&& kk)⟩

end Sys2Proof

/-! ## Index register and memory transfer (42_index_memory) -/

namespace Sys2Proof.Machine

section

variable {s t : State}

/-! ### In range or not (R156, 60_exceptions R203) -/

theorem firstBad_of_firstOutOfRange {a n bad : Nat} (h : firstOutOfRange a n = some bad) : FirstBad a n bad :=
  firstOutOfRange_eq_some.mp h

/-- What an access of `n` bytes at `a` can answer: the next state in range, else the fault with the first bad address. -/
def AccessAnswers (a n : Nat) (o : Host.Outcome State Fault Refusal) (t : State) (fault : Nat → Fault) : Prop :=
  (firstOutOfRange a n = none ∧ o = .next t) ∨ ∃ bad, firstOutOfRange a n = some bad ∧ o = .fault (fault bad)

theorem AccessAnswers.next_of_in_range {a n : Nat} {o : Host.Outcome State Fault Refusal} {fault : Nat → Fault}
    (h : AccessAnswers a n o t fault) (hin : a + n ≤ 4096) : o = .next t := by
  rcases h with ⟨_, e⟩ | ⟨bad, hbad, _⟩
  · exact e
  · cases (firstOutOfRange_eq_none.mpr (.inr hin)).symm.trans hbad

theorem AccessAnswers.fault_of_out_of_range {a n : Nat} {o : Host.Outcome State Fault Refusal} {fault : Nat → Fault}
    (h : AccessAnswers a n o t fault) (hpos : n ≠ 0) (hout : 4096 < a + n) :
    ∃ bad, FirstBad a n bad ∧ o = .fault (fault bad) := by
  rcases h with ⟨hin, _⟩ | ⟨bad, hbad, e⟩
  · rcases firstOutOfRange_eq_none.mp hin with hzero | hle
    · exact absurd hzero hpos
    · omega
  · exact ⟨bad, firstBad_of_firstOutOfRange hbad, e⟩

/-! ### What is left when the instruction completes -/

/-- An instruction that answers with a new `I` and the advance: what is known of that `I`, and the whole frame. -/
theorem exists_next_of_setIdx {i : Instr} {w : Word} (P : Word → Prop) (h : exec i s = .next (s.setIdx w).advance)
    (hP : P w) :
    ∃ t, exec i s = .next t ∧ P t.idx ∧ Advances s t ∧ KeepsRegs s t ∧ KeepsStack s t ∧
      KeepsTimers s t ∧ KeepsDisplay s t ∧ KeepsMem s t ∧ KeepsHost s t :=
  ⟨_, h, hP, advances_of_pc rfl, fun _ => rfl, ⟨rfl, fun _ => rfl⟩, ⟨rfl, rfl⟩, fun _ _ => rfl, fun _ => rfl,
    exec_keepsHost h⟩

/-- The frame of `n` bytes stored from `I` upward; `I` itself is kept too (R156). -/
theorem frame_of_writeList {bs : List Byte} {n : Nat} (hlen : bs.length = n)
    (ht : t = (s.setMem (s.mem.writeList s.base bs)).advance) :
    KeepsMemOutside s.idx.toNat n s t ∧ Advances s t ∧ KeepsRegs s t ∧ KeepsIndex s t ∧ KeepsStack s t ∧
      KeepsTimers s t ∧ KeepsDisplay s t ∧ KeepsHost s t := by
  subst hlen ht
  exact ⟨Memory.read_writeList_outside bs s.mem s.base, advances_of_pc rfl, fun _ => rfl, rfl, ⟨rfl, fun _ => rfl⟩,
    ⟨rfl, rfl⟩, fun _ _ => rfl, keepsHost_setMem_writeList s s.base bs⟩

/-- The load of `V[0]`, ..., `V[x]` puts the byte at `a + k` in `V[k]`. -/
theorem getV_setRegs_loadFrom_readList_inside {x k : Nibble} {a : Nat} (h : k.toNat ≤ x.toNat) :
    (s.setRegs (loadFrom s.v 0 (s.mem.readList a (x.toNat + 1)))).getV k = s.mem.read (a + k.toNat) := by
  have hin : k.toNat < x.toNat + 1 := Nat.lt_succ_of_le h
  simp [State.getV, getElem_loadFrom, hin]

theorem keepsBeyondRegs_setRegs_advance (s : State) (v : Vector Byte 16) : KeepsBeyondRegs s (s.setRegs v).advance :=
  ⟨rfl, ⟨rfl, fun _ => rfl⟩, ⟨rfl, rfl⟩, fun _ _ => rfl, fun _ => rfl, rfl, rfl, rfl, rfl, rfl⟩

end

/-- A byte times 5 has 16 bits, so the glyph's address needs no reduction (R152). -/
theorem toNat_setWidth_16_mul_five (b : Byte) : (b.setWidth 16 * 5).toNat = b.toNat * 5 := by
  bv_omega

/-- `I` and a byte are added as exact integers, then 16 bits are kept (R151). -/
theorem toNat_add_setWidth_byte (w : Word) (b : Byte) : (w + b.setWidth 16).toNat = (w.toNat + b.toNat) % 65536 := by
  bv_omega

end Sys2Proof.Machine

namespace Sys2Proof

open Sys2Proof.Machine

/-- Settles O21: the three digits lie in range exactly where `I + 2` does. -/
theorem bcdStoresThreeDigits : Obligations.BcdStoresThreeDigits := by
  unfold Obligations.BcdStoresThreeDigits
  intro x s
  have hcases : AccessAnswers s.idx.toNat 3 (exec (.ldB x) s) _ _ := execLdB_cases x s
  refine ⟨layoutXSUB_eq 0xF x 0x33, fun hin => ?_, fun hout => hcases.fault_of_out_of_range (by decide) (by omega)⟩
  have hnext := hcases.next_of_in_range (by omega)
  exact ⟨_, hnext, read_of_exec_ldB hnext (.inl ⟨rfl, rfl⟩), read_of_exec_ldB hnext (.inr (.inl ⟨rfl, rfl⟩)),
    read_of_exec_ldB hnext (.inr (.inr ⟨rfl, rfl⟩)), frame_of_writeList (length_bcdDigits _) rfl⟩

/-- Settles O22: the group has `x + 1` bytes, the last of them at `I + x`. -/
theorem storeRegsStoresTheGroup : Obligations.StoreRegsStoresTheGroup := by
  unfold Obligations.StoreRegsStoresTheGroup
  intro x s
  have hcases : AccessAnswers s.idx.toNat (x.toNat + 1) (exec (.storeRegs x) s) _ _ := execStoreRegs_cases x s
  refine ⟨layoutXSUB_eq 0xF x 0x55, fun hin => ?_,
    fun hout => hcases.fault_of_out_of_range (Nat.succ_ne_zero _) (by omega)⟩
  have hnext := hcases.next_of_in_range (by omega)
  exact ⟨_, hnext, fun _ => read_of_exec_storeRegs hnext, frame_of_writeList (length_regsUpTo s x) rfl⟩

/-- Settles O23: the group has `x + 1` bytes, the last of them at `I + x`. -/
theorem loadRegsLoadsTheGroup : Obligations.LoadRegsLoadsTheGroup := by
  unfold Obligations.LoadRegsLoadsTheGroup
  intro x s
  have hcases : AccessAnswers s.idx.toNat (x.toNat + 1) (exec (.loadRegs x) s) _ _ := execLoadRegs_cases x s
  refine ⟨layoutXSUB_eq 0xF x 0x65, fun hin => ?_,
    fun hout => hcases.fault_of_out_of_range (Nat.succ_ne_zero _) (by omega)⟩
  exact ⟨_, hcases.next_of_in_range (by omega), fun _ => getV_setRegs_loadFrom_readList_inside,
    fun _ hr => getV_setRegs_loadFrom_readList (Nat.lt_of_not_le hr), advances_of_pc rfl,
    keepsBeyondRegs_setRegs_advance s _⟩

/-- Settles O24: the store leaves `I`, so the load reads the bytes that were stored. -/
theorem storeThenLoadRestoresTheGroup : Obligations.StoreThenLoadRestoresTheGroup := by
  unfold Obligations.StoreThenLoadRestoresTheGroup
  intro x s hin
  obtain ⟨_, hstore, _⟩ := storeRegsStoresTheGroup x s
  obtain ⟨t, ht, hstored, _, _, _, hidx, _⟩ := hstore hin
  refine ⟨t, ht, fun u hsameIdx hsameMem => ?_⟩
  have hbase : u.idx = s.idx := hsameIdx.trans hidx
  obtain ⟨_, hload, _⟩ := loadRegsLoadsTheGroup x u
  obtain ⟨w, hw, hloaded, _⟩ := hload (hbase ▸ hin)
  refine ⟨w, hw, fun k hk => ?_⟩
  calc w.getV k = u.mem.read (u.idx.toNat + k.toNat) := hloaded k hk
    _ = t.mem.read (s.idx.toNat + k.toNat) := by rw [hsameMem, hbase]
    _ = s.getV k := hstored k hk

/-- Settles O18. -/
theorem ldIndexTakesTheAddress : Obligations.LdIndexTakesTheAddress := by
  unfold Obligations.LdIndexTakesTheAddress
  intro addr s
  exact ⟨layoutAddr_eq 0xA addr,
    exists_next_of_setIdx (·.toNat = addr.toNat) rfl (BitVec.toNat_setWidth_of_le (by decide))⟩

/-- Settles O19. -/
theorem addIndexWrapsAtSixteenBits : Obligations.AddIndexWrapsAtSixteenBits := by
  unfold Obligations.AddIndexWrapsAtSixteenBits
  intro x s
  exact ⟨layoutXSUB_eq 0xF x 0x1E,
    exists_next_of_setIdx (·.toNat = (s.idx.toNat + (s.getV x).toNat) % 65536) rfl (toNat_add_setWidth_byte _ _)⟩

/-- Settles O20. -/
theorem ldFontAddressIsFiveTimes : Obligations.LdFontAddressIsFiveTimes := by
  unfold Obligations.LdFontAddressIsFiveTimes
  intro x s
  exact ⟨layoutXSUB_eq 0xF x 0x29,
    exists_next_of_setIdx (·.toNat = (s.getV x).toNat * 5) rfl (toNat_setWidth_16_mul_five _)⟩

end Sys2Proof

/-! ## Display (43_display): CLS, DRW and the loops of `draw_sprite` -/

namespace Sys2Proof.Machine

/-! ### Which cells a piece of a sprite lands on (R172) -/

theorem val_wrapX (n : Nat) : (wrapX n : Nat) = n % 64 := rfl

theorem val_wrapY (n : Nat) : (wrapY n : Nat) = n % 32 := rfl

/-- The cell that bit `bit_index` `b` of the row byte at row `y` lands on, when that bit is 1. -/
def BitHits (ox y : Nat) (row : Byte) (b : Nat) (px : Fin 64) (py : Fin 32) : Prop :=
  row.getLsbD (7 - b) = true ∧ px = wrapX (ox + b) ∧ py = wrapY y

/-- Some 1-bit among the first `k` of the row byte at row `y` lands on the cell. -/
def RowHits (ox y : Nat) (row : Byte) (k : Nat) (px : Fin 64) (py : Fin 32) : Prop :=
  ∃ b < k, BitHits ox y row b px py

theorem rowHits_zero (ox y : Nat) (row : Byte) (px : Fin 64) (py : Fin 32) : ¬ RowHits ox y row 0 px py := by
  simp [RowHits]

theorem rowHits_succ {ox y : Nat} {row : Byte} {k : Nat} {px : Fin 64} {py : Fin 32} :
    RowHits ox y row (k + 1) px py ↔ RowHits ox y row k px py ∨ BitHits ox y row k px py :=
  Nat.exists_lt_succ_right

theorem val_py_of_rowHits {ox y : Nat} {row : Byte} {k : Nat} {px : Fin 64} {py : Fin 32}
    (h : RowHits ox y row k px py) : (py : Nat) = y % 32 := by
  obtain ⟨_, _, _, _, rfl⟩ := h
  exact val_wrapY y

/-- At most 64 bits in a row land on different columns. -/
theorem not_bitHits_of_rowHits {ox y : Nat} {row : Byte} {k : Nat} {px : Fin 64} {py : Fin 32} (hk : k < 64)
    (h : RowHits ox y row k px py) : ¬ BitHits ox y row k px py := by
  rintro ⟨_, hcol, _⟩
  obtain ⟨b, hb, _, rfl, _⟩ := h
  have hcols := Fin.val_eq_of_eq hcol
  rw [val_wrapX, val_wrapX] at hcols
  omega

theorem spriteHits_nil (ox oy : Nat) (px : Fin 64) (py : Fin 32) : ¬ SpriteHits ox oy [] px py := by
  simp [SpriteHits]

theorem spriteHits_iff_bitHits {ox oy : Nat} {rows : List Byte} {px : Fin 64} {py : Fin 32} :
    SpriteHits ox oy rows px py ↔
      ∃ (r b : Nat) (row : Byte), rows[r]? = some row ∧ b < 8 ∧ BitHits ox (oy + r) row b px py := by
  simp only [SpriteHits, BitHits, Fin.ext_iff, val_wrapX, val_wrapY]

/-- A sprite's cells are those of its first row and those of the rest, one row further down. -/
theorem spriteHits_cons {ox oy : Nat} {row : Byte} {rest : List Byte} {px : Fin 64} {py : Fin 32} :
    SpriteHits ox oy (row :: rest) px py ↔ RowHits ox oy row 8 px py ∨ SpriteHits ox (oy + 1) rest px py := by
  simp only [spriteHits_iff_bitHits]
  constructor
  · rintro ⟨r, b, row', hr, hb, hbit⟩
    cases r with
    | zero =>
      cases hr
      exact .inl ⟨b, hb, hbit⟩
    | succ r => exact .inr ⟨r, b, row', hr, hb, by rwa [Nat.add_right_comm]⟩
  · rintro (⟨b, hb, hbit⟩ | ⟨r, b, row', hr, hb, hbit⟩)
    · exact ⟨0, b, row, rfl, hb, hbit⟩
    · exact ⟨r + 1, b, row', hr, hb, by rwa [Nat.add_right_comm] at hbit⟩

/-- At most 32 rows land on different rows of the display. -/
theorem not_spriteHits_of_rowHits {ox oy : Nat} {row : Byte} {rest : List Byte} {k : Nat} {px : Fin 64} {py : Fin 32}
    (hlen : rest.length < 32) (h : RowHits ox oy row k px py) : ¬ SpriteHits ox (oy + 1) rest px py := by
  rintro ⟨r, _, _, hr, _, _, _, hrow⟩
  have hlt := (List.getElem?_eq_some_iff.mp hr).1
  have hfirst := val_py_of_rowHits h
  omega

theorem exists_bit_of_byte_ne_zero {row : Byte} : row ≠ 0 ↔ ∃ b < 8, row.getLsbD (7 - b) = true := by
  constructor
  · intro hne
    by_contra hnone
    refine hne (BitVec.eq_of_getLsbD_eq (y := 0#8) fun i hi => ?_)
    rw [BitVec.getLsbD_zero]
    by_contra hbit
    refine hnone ⟨7 - i, by omega, ?_⟩
    rw [Nat.sub_sub_self (by omega)]
    exact eq_true_of_ne_false hbit
  · rintro ⟨b, _, hbit⟩ rfl
    simp at hbit

/-- A sprite lands somewhere exactly when it has a 1-bit. -/
theorem exists_spriteHits_iff {ox oy : Nat} {rows : List Byte} :
    (∃ px py, SpriteHits ox oy rows px py) ↔ ∃ row ∈ rows, row ≠ 0 := by
  simp only [spriteHits_iff_bitHits, exists_bit_of_byte_ne_zero]
  constructor
  · rintro ⟨_, _, r, b, row, hr, hb, hbit, _⟩
    exact ⟨row, List.mem_of_getElem? hr, b, hb, hbit⟩
  · rintro ⟨row, hmem, b, hb, hbit⟩
    obtain ⟨r, hr⟩ := List.getElem?_of_mem hmem
    exact ⟨_, _, r, b, row, hr, hb, hbit, rfl, rfl⟩

/-! ### What drawing on a set of cells does (R172, R173) -/

/-- From `acc` to `acc'` each cell of `H` was inverted once and no other cell changed; the collision that `acc'` carries
is the one `acc` had or a cell of `H` that was on in `acc`. -/
structure Draws (H : Fin 64 → Fin 32 → Prop) (acc acc' : Display × Bool) : Prop where
  hit : ∀ {px py}, H px py → acc'.1.cell px py = !acc.1.cell px py
  miss : ∀ {px py}, ¬ H px py → acc'.1.cell px py = acc.1.cell px py
  collision : acc'.2 = true ↔ acc.2 = true ∨ ∃ px py, H px py ∧ acc.1.cell px py = true

section

variable {H K L : Fin 64 → Fin 32 → Prop} {acc acc' acc'' : Display × Bool}

theorem Draws.refl (hnone : ∀ px py, ¬ H px py) (acc : Display × Bool) : Draws H acc acc where
  hit h := absurd h (hnone _ _)
  miss _ := rfl
  collision := by simp [hnone]

/-- Two drawings on disjoint sets of cells are one drawing on both: the second finds its cells as the first found them. -/
theorem Draws.trans (h : Draws H acc acc') (k : Draws K acc' acc'') (hdisj : ∀ {px py}, H px py → ¬ K px py)
    (hL : ∀ {px py}, L px py ↔ H px py ∨ K px py) : Draws L acc acc'' where
  hit hl := by
    rcases hL.mp hl with hh | hk
    · rw [k.miss (hdisj hh), h.hit hh]
    · rw [k.hit hk, h.miss fun hh => hdisj hh hk]
  miss hl := by
    obtain ⟨hh, hk⟩ := not_or.mp (mt hL.mpr hl)
    rw [k.miss hk, h.miss hh]
  collision := by
    have hfound {px py} (hk : K px py) : acc'.1.cell px py = acc.1.cell px py := h.miss fun hh => hdisj hh hk
    have hsame : (∃ px py, K px py ∧ acc'.1.cell px py = true) ↔ ∃ px py, K px py ∧ acc.1.cell px py = true :=
      exists₂_congr fun _ _ => and_congr_right fun hk => by rw [hfound hk]
    simp only [k.collision, h.collision, hsame, hL, or_and_right, exists_or, or_assoc]

theorem draws_drawBit {ox y b : Nat} {row : Byte} (acc : Display × Bool) :
    Draws (BitHits ox y row b) acc (drawBit (wrapX (ox + b)) (wrapY y) (row.getLsbD (7 - b)) acc) := by
  rcases drawBit_cases (wrapX (ox + b)) (wrapY y) (row.getLsbD (7 - b)) acc with ⟨hbit, e⟩ | ⟨hbit, e⟩
  · rw [e]
    exact .refl (fun _ _ h => Bool.false_ne_true (hbit.symm.trans h.1)) acc
  · rw [e]
    have hhits {px py} : BitHits ox y row b px py ↔ px = wrapX (ox + b) ∧ py = wrapY y := and_iff_right hbit
    constructor
    case hit => intro px py h; simp [cell_flip, hhits.mp h]
    case miss => intro px py h; simp [cell_flip, mt hhits.mpr h]
    case collision => simp [hhits, and_assoc]

/-- Induction on the bits drawn so far. -/
theorem draws_bits (ox y : Nat) (row : Byte) (acc : Display × Bool) {k : Nat} (hk : k ≤ 64) :
    Draws (RowHits ox y row k) acc
      ((List.range k).foldl (fun a b => drawBit (wrapX (ox + b)) (wrapY y) (row.getLsbD (7 - b)) a) acc) := by
  induction k with
  | zero => exact .refl (rowHits_zero ox y row) acc
  | succ k ih =>
    rw [List.range_succ, List.foldl_append]
    exact (ih (by omega)).trans (draws_drawBit _) (not_bitHits_of_rowHits (by omega)) rowHits_succ

theorem draws_drawRow (ox y : Nat) (row : Byte) (acc : Display × Bool) :
    Draws (RowHits ox y row 8) acc (drawRow ox y row acc) :=
  draws_bits ox y row acc (by decide)

/-- Induction on the rows; 32 of them reach every row of the display once. -/
theorem draws_drawRows (ox y : Nat) (rows : List Byte) (acc : Display × Bool) (hlen : rows.length ≤ 32) :
    Draws (SpriteHits ox y rows) acc (drawRows ox y rows acc) := by
  induction rows generalizing y acc with
  | nil => exact .refl (spriteHits_nil ox y) acc
  | cons row rest ih =>
    rw [List.length_cons] at hlen
    exact (draws_drawRow ox y row acc).trans (ih (y + 1) _ (by omega)) (not_spriteHits_of_rowHits (by omega))
      spriteHits_cons

theorem draws_drawSprite (d : Display) (ox oy : Nat) {rows : List Byte} (hlen : rows.length ≤ 15) :
    Draws (SpriteHits ox oy rows) (d, false) (drawSprite d ox oy rows) :=
  draws_drawRows ox oy rows (d, false) (by omega)

/-! ### What follows for a drawing with no collision before it -/

variable {d : Display}

theorem Draws.collision_iff_hit_on (h : Draws H (d, false) acc) :
    acc.2 = true ↔ ∃ px py, H px py ∧ d.cell px py = true := by
  simpa using h.collision

/-- The cells that a drawing turns off are the cells it hits that were on. -/
theorem Draws.turned_off_iff {px : Fin 64} {py : Fin 32} (h : Draws H acc acc') :
    (acc.1.cell px py = true ∧ acc'.1.cell px py = false) ↔ H px py ∧ acc.1.cell px py = true := by
  by_cases hh : H px py
  · simp [h.hit hh, hh]
  · simp [h.miss hh, hh]

theorem Draws.cell_of_twice (h : Draws H acc acc') (k : Draws H (acc'.1, false) acc'') (px : Fin 64) (py : Fin 32) :
    acc''.1.cell px py = acc.1.cell px py := by
  by_cases hh : H px py
  · rw [k.hit hh, h.hit hh, Bool.not_not]
  · rw [k.miss hh, h.miss hh]

/-- A second drawing collides where the first turned a cell on. -/
theorem Draws.collision_of_twice (h : Draws H (d, false) acc) (k : Draws H (acc.1, false) acc') :
    acc'.2 = true ↔ ∃ px py, H px py ∧ d.cell px py = false := by
  rw [k.collision_iff_hit_on]
  refine exists₂_congr fun px py => and_congr_right fun hh => ?_
  rw [h.hit hh, Bool.not_eq_true']

end

theorem display_eq_of_cell_eq {d d' : Display} (h : ∀ px py, d.cell px py = d'.cell px py) : d = d' :=
  Vector.ext fun py hpy => BitVec.eq_of_getLsbD_eq fun px hpx => h ⟨px, hpx⟩ ⟨py, hpy⟩

/-! ### What DRW leaves (R171) -/

/-- An access of no bytes completes wherever `a` is (R171 with `n = 0`). -/
theorem AccessAnswers.next_of_empty_or_in_range {a n : Nat} {o : Host.Outcome State Fault Refusal} {t : State}
    {fault : Nat → Fault} (h : AccessAnswers a n o t fault) (hin : n = 0 ∨ a + n ≤ 4096) : o = .next t := by
  rcases h with ⟨_, e⟩ | ⟨bad, hbad, _⟩
  · exact e
  · cases (firstOutOfRange_eq_none.mpr hin).symm.trans hbad

theorem getV_drawn_F (s : State) (x y : Nibble) (rows : List Byte) :
    (s.drawn x y rows).getV 0xF = flagByte (drawSprite s.display (s.getV x).toNat (s.getV y).toNat rows).2 :=
  getV_setV_same _ 0xF _

theorem keepsRegsBut_drawn (s : State) (x y : Nibble) (rows : List Byte) :
    KeepsRegsBut (· = 0xF) s (s.drawn x y rows) :=
  fun _ hr => getV_setV_ne _ _ hr

end Sys2Proof.Machine

namespace Sys2Proof

open Sys2Proof.Machine

/-- Settles O26: DRW is an access of `n` bytes at `I`, none of them when `n = 0`. -/
theorem drwDrawsTheRowsAtI : Obligations.DrwDrawsTheRowsAtI := by
  unfold Obligations.DrwDrawsTheRowsAtI
  intro x y n s
  have hcases : AccessAnswers s.idx.toNat n.toNat (exec (.drw x y n) s) _ _ := execDrw_cases x y n s
  refine ⟨layoutXYN_eq 0xD x y n, fun hin => ?_, fun ⟨hpos, hout⟩ =>
    hcases.fault_of_out_of_range (Nat.ne_of_gt hpos) (by omega)⟩
  have hnext := hcases.next_of_empty_or_in_range (by omega)
  refine ⟨_, s.mem.readList s.base n.toNat, hnext, Memory.length_readList _ _ _, fun r hr => ?_, rfl,
    getV_drawn_F s x y _, keepsRegsBut_drawn s x y _, advances_of_pc rfl, rfl, ⟨rfl, fun _ => rfl⟩, ⟨rfl, rfl⟩,
    fun _ => rfl, exec_keepsHost hnext⟩
  exact (Memory.getElem?_readList _ _ _ _).trans (if_pos hr)

/-- Settles O27: a drawing turns off exactly the cells it hits that were on. -/
theorem spriteXorsTheCellsItHits : Obligations.SpriteXorsTheCellsItHits := by
  unfold Obligations.SpriteXorsTheCellsItHits
  intro d ox oy rows hlen
  have h := draws_drawSprite d ox oy hlen
  refine ⟨fun px py => ⟨h.hit, h.miss⟩, h.collision_iff_hit_on.trans ?_⟩
  exact exists₂_congr fun _ _ => h.turned_off_iff.symm

/-- Settles O28. -/
theorem collisionIsAnOnCellHit : Obligations.CollisionIsAnOnCellHit := by
  unfold Obligations.CollisionIsAnOnCellHit
  intro d ox oy rows hlen
  exact (draws_drawSprite d ox oy hlen).collision_iff_hit_on

/-- Settles O29: the second draw hits the cells the first one hit, each of them inverted. -/
theorem drawingTwiceRestoresTheDisplay : Obligations.DrawingTwiceRestoresTheDisplay := by
  unfold Obligations.DrawingTwiceRestoresTheDisplay
  intro d ox oy rows hlen
  have hfirst := draws_drawSprite d ox oy hlen
  have hsecond := draws_drawSprite (drawSprite d ox oy rows).1 ox oy hlen
  have hcollides := hfirst.collision_of_twice hsecond
  refine ⟨display_eq_of_cell_eq (hfirst.cell_of_twice hsecond), hcollides, fun hclear => hcollides.trans ?_⟩
  calc (∃ px py, SpriteHits ox oy rows px py ∧ d.cell px py = false)
      ↔ ∃ px py, SpriteHits ox oy rows px py := exists₂_congr fun px py => and_iff_left_of_imp (hclear px py)
    _ ↔ ∃ row ∈ rows, row ≠ 0 := exists_spriteHits_iff

/-- Settles O25. -/
theorem clsClearsEveryCell : Obligations.ClsClearsEveryCell := by
  unfold Obligations.ClsClearsEveryCell
  intro m s
  exact ⟨rfl, OpcodeRow.selects_iff.mp (opcodeRow_selects_encode (.cls m)), _, rfl, cell_clear, advances_of_pc rfl,
    fun _ => rfl, rfl, ⟨rfl, fun _ => rfl⟩, ⟨rfl, rfl⟩, fun _ => rfl, rfl, rfl, rfl, rfl, rfl⟩

end Sys2Proof

/-! ## Keys and timers (44_keys_timers): SKP, SKNP, the moves of a timer and the wait for a key -/

namespace Sys2Proof.Machine

section

variable {s : State} {x : Nibble}

/-! ### What a skip on a key can answer (R180, R181, R183) -/

/-- `i` skips on the condition `c` of the key in `V[x]`, or faults where `V[x]` holds no key. -/
def KeySkipAnswers (i : Instr) (x : Nibble) (s : State) (c : Nibble → Bool) : Prop :=
  (15 < (s.getV x).toNat ∧ exec i s = .fault (.keyOutOfRange ⟨encode i, s.pc, (s.getV x).setWidth 16⟩)) ∨
  (∃ k : Nibble, k.toNat = (s.getV x).toNat ∧ exec i s = .next (s.skipIf (c k)))

theorem exec_skp_answers (x : Nibble) (s : State) : KeySkipAnswers (.skp x) x s s.keyDown := execSkp_cases x s

theorem exec_sknp_answers (x : Nibble) (s : State) : KeySkipAnswers (.sknp x) x s (!s.keyDown ·) := execSknp_cases x s

variable {i : Instr} {c : Nibble → Bool}

theorem KeySkipAnswers.fault_of_out_of_range (h : KeySkipAnswers i x s c) (hout : (s.getV x).toNat > 15) :
    exec i s = .fault (.keyOutOfRange ⟨encode i, s.pc, (s.getV x).setWidth 16⟩) := by
  rcases h with ⟨_, e⟩ | ⟨k, hk, _⟩
  · exact e
  · omega

theorem KeySkipAnswers.next_of_key {k : Nibble} (h : KeySkipAnswers i x s c) (hk : (s.getV x).toNat = k.toNat) :
    exec i s = .next (s.skipIf (c k)) := by
  rcases h with ⟨hout, _⟩ | ⟨k', hk', e⟩
  · omega
  · cases BitVec.eq_of_toNat_eq (hk'.trans hk)
    exact e

/-! ### What a move into a timer leaves (R185, R186) -/

/-- The whole frame of a write to the timers, be it one of them that gets a new value or both. -/
theorem frame_of_setTimers (s : State) (delay sound : Byte) {t : State}
    (ht : t = ((s.setDt delay).setSt sound).advance) :
    Advances s t ∧ KeepsRegs s t ∧ KeepsIndex s t ∧ KeepsStack s t ∧ KeepsDisplay s t ∧ KeepsMem s t ∧ KeepsHost s t := by
  subst ht
  exact ⟨advances_of_pc rfl, fun _ => rfl, rfl, ⟨rfl, fun _ => rfl⟩, fun _ _ => rfl, fun _ => rfl, rfl, rfl, rfl, rfl, rfl⟩

/-! ### LD Vx, K by the answer of `KeyAny` (R184) -/

theorem exec_ldVxK (x : Nibble) (s : State) : exec (.ldVxK x) s = .next (s.takeKey x s.keyAny) := rfl

theorem exec_ldVxK_of_keyAny_none (h : s.keyAny = none) : exec (.ldVxK x) s = .next s := by
  rw [exec_ldVxK, h, State.takeKey]

theorem exec_ldVxK_of_keyAny_some {k : Nibble} (h : s.keyAny = some k) :
    exec (.ldVxK x) s = .next (s.result x (k.setWidth 8)) := by
  rw [exec_ldVxK, h, State.takeKey, State.result]

end

end Sys2Proof.Machine

namespace Sys2Proof

open Sys2Proof.Machine

/-- Settles O30: the two skips differ in the condition on the key alone. -/
theorem keySkipsTestTheLevel : Obligations.KeySkipsTestTheLevel := by
  unfold Obligations.KeySkipsTestTheLevel
  intro x s
  have hskp := exec_skp_answers x s
  have hsknp := exec_sknp_answers x s
  refine ⟨layoutXSUB_eq 0xE x 0x9E, layoutXSUB_eq 0xE x 0xA1,
    fun hout => ⟨hskp.fault_of_out_of_range hout, hsknp.fault_of_out_of_range hout⟩, fun k hk => ⟨?_, ?_⟩⟩
  · exact exists_next_of_skipIf (hskp.next_of_key hk) Iff.rfl
  · exact exists_next_of_skipIf (hsknp.next_of_key hk) (Bool.not_eq_true' _).to_iff

/-- Settles O31: the timer that a move does not name is written with its own value. -/
theorem timerMovesAreDirect : Obligations.TimerMovesAreDirect := by
  unfold Obligations.TimerMovesAreDirect
  intro x s
  refine ⟨layoutXSUB_eq 0xF x 0x07, layoutXSUB_eq 0xF x 0x15, layoutXSUB_eq 0xF x 0x18, ?_, ?_, ?_⟩
  · exact exists_next_of_result (· = s.dt) rfl rfl
  · exact ⟨_, rfl, rfl, rfl, frame_of_setTimers s (s.getV x) s.st rfl⟩
  · exact ⟨_, rfl, rfl, rfl, frame_of_setTimers s s.dt (s.getV x) rfl⟩

/-- Settles O32. -/
theorem waitForKeyRepeatsOrStores : Obligations.WaitForKeyRepeatsOrStores := by
  unfold Obligations.WaitForKeyRepeatsOrStores
  intro x s
  refine ⟨layoutXSUB_eq 0xF x 0x0A, exec_ldVxK_of_keyAny_none, fun k hkey => ?_⟩
  exact exists_next_of_result (·.toNat = k.toNat) (exec_ldVxK_of_keyAny_some hkey)
    (BitVec.toNat_setWidth_of_le (by decide))

end Sys2Proof

/-! ## The exceptions (60_exceptions): who raises which fault, the latch, the halted state, the `FRAME` -/

namespace Sys2Proof.Machine

section

variable {s : State} {i : Instr} {f : Fault}

/-! ### The faults of an instruction (R200, R203 to R207) -/

/-- The instruction accesses `n` bytes of memory at `I` (R203). -/
def AccessesAtIndex (i : Instr) (n : Nat) : Prop :=
  (∃ x y m : Nibble, i = .drw x y m ∧ n = m.toNat) ∨ (∃ x, i = .ldB x ∧ n = 3) ∨
  ∃ x : Nibble, (i = .storeRegs x ∨ i = .loadRegs x) ∧ n = x.toNat + 1

/-- The faults of the instructions, each with its condition and its report (R200, R209). `exec_raises` ties it to `exec`. -/
inductive Raises (s : State) : Instr → Fault → Prop where
  | underflow (m : Nibble) (h : s.sp = 0) :
      Raises s (.ret m) (.stackUnderflow ⟨encode (.ret m), s.pc, s.sp.setWidth 16⟩)
  | overflow (addr : Addr) (h : 15 ≤ s.sp.toNat) :
      Raises s (.callAddr addr) (.stackOverflow ⟨encode (.callAddr addr), s.pc, s.sp.setWidth 16⟩)
  | key {i : Instr} {x : Nibble} (hi : i = .skp x ∨ i = .sknp x) (h : 15 < (s.getV x).toNat) :
      Raises s i (.keyOutOfRange ⟨encode i, s.pc, (s.getV x).setWidth 16⟩)
  | access {i : Instr} {n bad : Nat} (hi : AccessesAtIndex i n) (h : FirstBad s.idx.toNat n bad) :
      Raises s i (.memoryOutOfRange ⟨encode i, s.pc, addressInfo bad⟩)

theorem execRet_raises {m : Nibble} (h : execRet m s = .fault f) : Raises s (.ret m) f := by
  rcases execRet_cases m s with ⟨hzero, e⟩ | ⟨_, _, _, _, e⟩ | ⟨_, _, e⟩ <;> cases e.symm.trans h
  exact .underflow m hzero

theorem execCallAddr_raises {addr : Addr} (h : execCallAddr addr s = .fault f) : Raises s (.callAddr addr) f := by
  rcases execCallAddr_cases addr s with ⟨hfull, e⟩ | ⟨_, e⟩ <;> cases e.symm.trans h
  exact .overflow addr hfull

theorem KeySkipAnswers.raises {x : Nibble} {c : Nibble → Bool} (ha : KeySkipAnswers i x s c)
    (hi : i = .skp x ∨ i = .sknp x) (h : exec i s = .fault f) : Raises s i f := by
  rcases ha with ⟨hout, e⟩ | ⟨_, _, e⟩ <;> cases e.symm.trans h
  exact .key hi hout

theorem AccessAnswers.raises {n : Nat} {t : State}
    (ha : AccessAnswers s.idx.toNat n (exec i s) t (.memoryOutOfRange ⟨encode i, s.pc, addressInfo ·⟩))
    (hi : AccessesAtIndex i n) (h : exec i s = .fault f) : Raises s i f := by
  rcases ha with ⟨_, e⟩ | ⟨bad, hbad, e⟩ <;> cases e.symm.trans h
  exact .access hi (firstBad_of_firstOutOfRange hbad)

/-- Every fault of an instruction is one of the cases of `Raises`. -/
theorem exec_raises (h : exec i s = .fault f) : Raises s i f := by
  cases i with
  | ret m => exact execRet_raises h
  | callAddr addr => exact execCallAddr_raises h
  | skp x => exact (exec_skp_answers x s).raises (.inl rfl) h
  | sknp x => exact (exec_sknp_answers x s).raises (.inr rfl) h
  | drw x y n => exact AccessAnswers.raises (execDrw_cases x y n s) (.inl ⟨x, y, n, rfl, rfl⟩) h
  | ldB x => exact AccessAnswers.raises (execLdB_cases x s) (.inr (.inl ⟨x, rfl, rfl⟩)) h
  | storeRegs x => exact AccessAnswers.raises (execStoreRegs_cases x s) (.inr (.inr ⟨x, .inl rfl, rfl⟩)) h
  | loadRegs x => exact AccessAnswers.raises (execLoadRegs_cases x s) (.inr (.inr ⟨x, .inr rfl, rfl⟩)) h
  | cls | jpAddr | seImm | sneImm | seReg | ldImm | addImm | ldReg | orReg | andReg | xorReg | addReg | subReg | shr
  | subnReg | shl | sneReg | ldI | jpV0 | rnd | ldVxDt | ldVxK | ldDtVx | ldStVx | addI | ldF => cases h

theorem Raises.report_op (h : Raises s i f) : f.report.op = encode i := by cases h <;> rfl

theorem Raises.report_pc (h : Raises s i f) : f.report.pc = s.pc := by cases h <;> rfl

/-- The first bad address is `I` or 4096, so its report in 16 bits is exact. -/
theorem toNat_addressInfo_of_firstBad {w : Word} {n bad : Nat} (h : FirstBad w.toNat n bad) :
    (addressInfo bad).toNat = bad := by
  obtain ⟨hfrom, _, hout, hfirst⟩ := h
  have hprev := hfirst (bad - 1)
  have hw := w.isLt
  exact Nat.mod_eq_of_lt (by omega)

/-! ### A `TICK` that faults (R201, R202, R207, R208) -/

theorem tick_of_fetch_error (h : s.fetch = .error f) : tick s = .fault f := by
  rw [tick, h]

theorem tick_of_no_row {op : Word} (hf : s.fetch = .ok op) (hno : ∀ r ∈ opcodeMap, r.selects op = false) :
    tick s = .fault (.invalidOpcode ⟨op, s.pc, op⟩) := by
  simp only [tick, hf, decodeWord_of_no_row hno]

/-- Fetch, decoder and instruction all report the `PC` they stand at (R209). -/
theorem report_pc_of_tick_fault (h : tick s = .fault f) : f.report.pc = s.pc := by
  rcases tick_cases s with ⟨g, hf, e⟩ | ⟨op, d, _, _, e⟩ | ⟨op, i, _, _, e⟩
  · cases e.symm.trans h
    rcases fetch_cases s with ⟨_, e⟩ | ⟨_, e⟩ <;> cases e.symm.trans hf
    rfl
  · cases e.symm.trans h
    rfl
  · exact (exec_raises (e.symm.trans h)).report_pc

theorem mapNext_eq_fault {g : State → State} {o : Host.Outcome State Fault Refusal} :
    mapNext g o = .fault f ↔ o = .fault f := by
  cases o <;> simp [mapNext]

theorem step_of_running (hrun : s.halted = none) : step s = mapNext State.endTick (tick s) := by
  simp only [step, hrun, Option.isSome_none, Bool.false_eq_true, if_false]
  cases tick s <;> rfl

/-- A running machine's step faults where its `TICK` does. -/
theorem step_eq_fault_iff (hrun : s.halted = none) : step s = .fault f ↔ tick s = .fault f := by
  rw [step_of_running hrun, mapNext_eq_fault]

theorem tickEvent_of_tick_fault (hrun : s.halted = none) (h : tick s = .fault f) : tickEvent s = some (s.halt f) := by
  simp [tickEvent, hrun, h]

/-- The first address above 4095 of a fetch past the end, as its report gives it (R202). -/
theorem addressInfo_of_fetch_past_end {pc : Word} (h : 0xFFF ≤ pc.toNat) :
    addressInfo (max pc.toNat 4096) = if pc.toNat > 4095 then pc else pc + 1 := by
  split
  · rw [max_eq_left (by omega), addressInfo, BitVec.ofNat_toNat, BitVec.setWidth_eq]
  · have hlast : pc = 0xFFF := BitVec.eq_of_toNat_eq (by simp; omega)
    rw [hlast]
    rfl

/-! ### The halted state (R211) -/

theorem step_of_halted (h : s.halted.isSome = true) : step s = .next s := if_pos h

theorem frame_of_halted (h : s.halted.isSome = true) : s.frame = s := if_pos h

theorem applyEvent_of_halted (h : s.halted.isSome = true) {e : HostEvent} (he : e ≠ .reset) : applyEvent s e = some s := by
  cases e with
  | reset => exact absurd rfl he
  | loadRom bytes =>
    have hload : loadRom bytes s = .notAccepted := if_pos h
    rw [applyEvent, hload]
  | tick => exact if_pos h
  | frame => exact congrArg some (frame_of_halted h)

/-! ### The `FRAME` (R215, R216) -/

theorem frame_of_running (h : s.halted = none) : s.frame = (s.setDt (countDown s.dt)).setSt (countDown s.st) := by
  simp [State.frame, h]

theorem frames_of_running (h : s.halted = none) (k : Nat) :
    s.frames k = (s.setDt (countDownBy k s.dt)).setSt (countDownBy k s.st) := by
  simp [State.frames, h]

theorem frames_eq_iterate (s : State) (k : Nat) : s.frames k = State.frame^[k] s := by
  induction k generalizing s with
  | zero => exact frames_zero s
  | succ k ih => rw [frames_succ, ih, Function.iterate_succ_apply]

theorem countDown_zero : countDown 0 = 0 := rfl

theorem countDownBy_eq_zero_iff (k : Nat) (t : Byte) : countDownBy k t = 0 ↔ t.toNat ≤ k := by
  rw [← BitVec.toNat_inj, toNat_countDownBy]
  exact Nat.sub_eq_zero_iff_le

end

end Sys2Proof.Machine

namespace Sys2Proof

open Sys2Proof.Machine

/-- Settles O38: the four conditions are the four ways an instruction can fault. -/
theorem eachFaultHasItsInstructionAndReport : Obligations.EachFaultHasItsInstructionAndReport := by
  unfold Obligations.EachFaultHasItsInstructionAndReport
  intro i s f h
  have hraises : Raises s i f := exec_raises h
  refine ⟨hraises.report_op, hraises.report_pc, ?_⟩
  cases hraises with
  | underflow m hzero => exact .inl ⟨rfl, ⟨m, rfl⟩, hzero, BitVec.toNat_setWidth_of_le (by decide)⟩
  | overflow addr hfull => exact .inr (.inl ⟨rfl, ⟨addr, rfl⟩, hfull, BitVec.toNat_setWidth_of_le (by decide)⟩)
  | @key _ x hi hout => exact .inr (.inr (.inl ⟨rfl, x, hi, hout, BitVec.toNat_setWidth_of_le (by decide)⟩))
  | @access _ n bad hi hbad =>
    have hinfo : (addressInfo bad).toNat = bad := toNat_addressInfo_of_firstBad hbad
    exact .inr (.inr (.inr ⟨rfl, n, hi, hinfo.symm ▸ hbad⟩))

/-- Settles O36: the fetch succeeds, and the decoder knows no row for the word. -/
theorem invalidWordIsFatal : Obligations.InvalidWordIsFatal := by
  unfold Obligations.InvalidWordIsFatal
  rintro s hrun hpc op rfl hno
  have htick := tick_of_no_row (fetch_of_in_range hpc) hno
  exact ⟨(step_eq_fault_iff hrun).mpr htick, tickEvent_of_tick_fault hrun htick⟩

/-- Settles O39: the event leaves the state before the `TICK`, with the latch set. -/
theorem faultsAreLatchedAndPrecise : Obligations.FaultsAreLatchedAndPrecise := by
  unfold Obligations.FaultsAreLatchedAndPrecise
  intro s f hrun h
  have htick : tick s = .fault f := (step_eq_fault_iff hrun).mp h
  exact ⟨report_pc_of_tick_fault htick, s.halt f, tickEvent_of_tick_fault hrun htick, rfl, rfl, getV_halt s f, rfl,
    ⟨rfl, fun _ => rfl⟩, ⟨rfl, rfl⟩, fun _ _ => rfl, fun _ => rfl⟩

/-- Settles O44: the `FRAME`s at once are the iterated `FRAME`, and count each timer down by their number. -/
theorem timersReachZeroAfterTheirCount : Obligations.TimersReachZeroAfterTheirCount := by
  unfold Obligations.TimersReachZeroAfterTheirCount
  intro s k hrun
  refine ⟨frames_eq_iterate s k, ?_⟩
  rw [← frames_eq_iterate, frames_of_running hrun]
  exact ⟨toNat_countDownBy k s.dt, toNat_countDownBy k s.st, countDownBy_eq_zero_iff k s.dt⟩

/-- Settles O37: the fetch fault is the step's fault. -/
theorem fetchPastTheEndIsFatal : Obligations.FetchPastTheEndIsFatal := by
  unfold Obligations.FetchPastTheEndIsFatal
  intro s hrun hpc
  rw [← addressInfo_of_fetch_past_end hpc]
  exact (step_eq_fault_iff hrun).mpr (tick_of_fetch_error (fetch_of_out_of_range hpc))

/-- Settles O40. -/
theorem haltedIsAbsorbing : Obligations.HaltedIsAbsorbing := by
  unfold Obligations.HaltedIsAbsorbing
  intro s h
  exact ⟨step_of_halted h, fun _ => applyEvent_of_halted h, resetEvent s, rfl, rfl⟩

/-- Settles O43: both timers are written, a zero one with its own value. -/
theorem frameDecrementsNonzeroTimers : Obligations.FrameDecrementsNonzeroTimers := by
  unfold Obligations.FrameDecrementsNonzeroTimers
  intro s
  refine ⟨fun hrun => ?_, frame_of_halted⟩
  rw [frame_of_running hrun]
  exact ⟨fun _ => toNat_countDown s.dt, fun hzero => (congrArg countDown hzero).trans countDown_zero,
    fun _ => toNat_countDown s.st, fun hzero => (congrArg countDown hzero).trans countDown_zero,
    rfl, fun _ => rfl, rfl, ⟨rfl, fun _ => rfl⟩, fun _ _ => rfl, fun _ => rfl, rfl, rfl, rfl, rfl, rfl⟩

end Sys2Proof

/-! ## Reset and hazards (70_reset_and_hazards): LOAD_ROM and its order, the parked state -/

namespace Sys2Proof.Machine

section

variable {s t : State} {bytes : List Byte}

/-! ### LOAD_ROM (R234, R235) -/

/-- The state with an image in memory. `loadRom_of_fresh` and `eq_loaded_of_loadRom` tie it to `loadRom`. -/
def State.loaded (s : State) (bytes : List Byte) : State :=
  { s.setMem (s.mem.writeList Config.progBase bytes) with boot := .loaded }

/-- Before any load and any `TICK` the size alone decides. -/
theorem loadRom_of_fresh (hrun : s.halted = none) (hfresh : s.boot = .fresh) :
    loadRom bytes s = if bytes.length > Config.romMax then .romTooLarge else .ok (s.loaded bytes) :=
  (if_neg (by simp [hrun])).trans (if_neg (not_not.mpr hfresh))

theorem loadRom_of_fits (hrun : s.halted = none) (hfresh : s.boot = .fresh) (hlen : bytes.length ≤ 3584) :
    loadRom bytes s = .ok (s.loaded bytes) :=
  (loadRom_of_fresh hrun hfresh).trans (if_neg (Nat.not_lt.mpr hlen))

theorem loadRom_of_too_large (hrun : s.halted = none) (hfresh : s.boot = .fresh) (hlen : bytes.length > 3584) :
    loadRom bytes s = .romTooLarge :=
  (loadRom_of_fresh hrun hfresh).trans (if_pos hlen)

theorem loadRom_of_not_fresh (hrun : s.halted = none) (hboot : s.boot ≠ .fresh) : loadRom bytes s = .outOfOrder := by
  simp [loadRom, hrun, hboot]

/-- An accepted load was one of a running machine. -/
theorem eq_loaded_of_loadRom (h : loadRom bytes s = .ok t) : s.halted = none ∧ t = s.loaded bytes := by
  unfold loadRom at h
  split at h
  · cases h
  · next hrun =>
    split at h
    · cases h
    · split at h <;> cases h
      exact ⟨by simpa using hrun, rfl⟩

/-- The image lies in 0x200..4095, so memory keeps its canonical form. -/
theorem loaded_inv (hlen : bytes.length ≤ 3584) (h : s.Inv) : (s.loaded bytes).Inv := by
  obtain ⟨hsp, hmem⟩ := h
  exact ⟨hsp, Memory.wf_writeList hmem (Nat.add_le_add_left hlen 512)⟩

/-- A completed step of a running machine is past the time for a load (R235). -/
theorem started_of_step (hrun : s.halted = none) (h : step s = .next t) : t.halted = none ∧ t.boot = .started := by
  rcases step_next h with ⟨hhalt, _⟩ | ⟨_, op, i, u, _, _, hx, rfl⟩
  · rw [hrun] at hhalt; cases hhalt
  · obtain ⟨hhalted, _⟩ := exec_keepsHost hx
    have hu : u.halted = none := hhalted.trans hrun
    rw [endTick_of_running hu]
    exact ⟨hu, rfl⟩

/-! ### The parked state (R236) -/

/-- An address of 12 bits is its own low 12 bits. -/
theorem setWidth_16_setWidth_12 {pc : Word} (h : pc.toNat ≤ 0xFFF) : (pc.setWidth 12).setWidth 16 = pc := by
  bv_omega

theorem encode_jump_to_pc (h : s.pc.toNat ≤ 0xFFF) : encode (.jpAddr (s.pc.setWidth 12)) = 0x1000 ||| s.pc := by
  calc encode (.jpAddr (s.pc.setWidth 12))
      = layoutAddr 0x1 0 ||| (s.pc.setWidth 12).setWidth 16 := layoutAddr_eq 0x1 (s.pc.setWidth 12)
    _ = 0x1000 ||| s.pc := by rw [setWidth_16_setWidth_12 h, show layoutAddr 0x1 0 = 0x1000 by decide]

theorem jump_to_pc (h : s.pc.toNat ≤ 0xFFF) : s.jump (s.pc.setWidth 12) = s :=
  congrArg s.setPc (setWidth_16_setWidth_12 h)

/-- The word fetched is the jump to `PC`, and the jump leaves the state as it is. -/
theorem tick_of_parked (h : Parked s) : tick s = .next s := by
  obtain ⟨hpc, hword⟩ := h
  have hpc' : s.pc.toNat ≤ 0xFFF := hpc.trans (by decide)
  have hfetch : s.fetch = .ok (encode (.jpAddr (s.pc.setWidth 12))) := by
    rw [fetch_of_in_range hpc, hword, encode_jump_to_pc hpc']
  have hexec : exec (.jpAddr (s.pc.setWidth 12)) s = .next s := congrArg _ (jump_to_pc hpc')
  simp only [tick, hfetch, decodeWord_encode, hexec]

end

end Sys2Proof.Machine

namespace Sys2Proof

open Sys2Proof.Machine

/-- Settles O57: the bytes written are the image's, and they lie in 0x200..4095 where it fits. -/
theorem loadRomCopiesOrRejects : Obligations.LoadRomCopiesOrRejects := by
  unfold Obligations.LoadRomCopiesOrRejects
  intro bytes s hrun hfresh
  constructor
  · intro hlen
    have hcopied (k : Nat) (hk : k < bytes.length) : some ((s.loaded bytes).mem.read (0x200 + k)) = bytes[k]? := by
      rw [List.getElem?_eq_getElem hk]
      exact congrArg some (Memory.read_writeList_inside bytes s.mem 0x200 k hk)
    exact ⟨s.loaded bytes, loadRom_of_fits hrun hfresh hlen, hcopied, Memory.read_writeList_outside bytes s.mem 0x200,
      rfl, fun _ => rfl, rfl, ⟨rfl, fun _ => rfl⟩, ⟨rfl, rfl⟩, fun _ _ => rfl, hrun,
      Memory.writeList_font s.mem 0x200 bytes, loaded_inv hlen⟩
  · intro hlen
    have hload := loadRom_of_too_large hrun hfresh hlen
    exact ⟨hload, by rw [applyEvent, hload]⟩

/-- Settles O59: the `TICK` answers the state itself, so the step is what the `FRAME`s and the next inputs make of it. -/
theorem parkedStaysParked : Obligations.ParkedStaysParked := by
  unfold Obligations.ParkedStaysParked
  intro s hrun hparked
  have htick := tick_of_parked hparked
  have hstep : step s = .next s.endTick := by rw [step_of_running hrun, htick, mapNext]
  refine ⟨htick, s.endTick, hstep, ?_⟩
  rw [endTick_of_running hrun]
  exact ⟨hparked, rfl, toNat_countDownBy _ _, toNat_countDownBy _ _, fun _ => rfl, rfl, ⟨rfl, fun _ => rfl⟩,
    fun _ _ => rfl, fun _ => rfl⟩

/-- Settles O58: both leave a running machine that is no longer fresh. -/
theorem loadRomIsInOrderOnce : Obligations.LoadRomIsInOrderOnce := by
  unfold Obligations.LoadRomIsInOrderOnce
  constructor
  · intro bytes bytes' s t h
    obtain ⟨hrun, rfl⟩ := eq_loaded_of_loadRom h
    exact loadRom_of_not_fresh hrun (by simp [State.loaded])
  · intro bytes s t hrun h
    obtain ⟨ht, hboot⟩ := started_of_step hrun h
    exact loadRom_of_not_fresh ht (by simp [hboot])

end Sys2Proof
